-- ==== Sys2Proof/Word.lean ====
section
/-! DEFINITION. The words of bmp390-CCB and the values of its floating-point registers.
`00_scope.md` rules R5, R6; `30_encoding.md` rule R60; `42_compensation.md` rule R120. -/

namespace Sys2Proof

/-- A calibration byte, an address or a selector: 8 bits. -/
abbrev Byte := BitVec 8

/-- A data register, the `DATA` field or a response: 32 bits. -/
abbrev Word := BitVec 32

/-- A command word `CW[39:0]` (R60, `CW_BITS` of R5). -/
abbrev CommandWord := BitVec 40

/-- The set `F32` of R6: what a binary32 pattern denotes (R120). Every finite binary32 value is a whole
multiple of 2^-149, so a finite value is its sign and its magnitude counted in units of 2^-149; the two
zeros are `fin false 0` and `fin true 0`. R125 leaves the pattern of a NaN open and lets a program rely
only on "is a NaN", so all NaNs are one value here; which pattern is written is drawn when the value goes
into a register. -/
inductive F32 where
  | nan
  | inf (neg : Bool)
  | fin (neg : Bool) (mag : Nat)
  deriving DecidableEq, Repr

/-- The response `(ok, data)` of R71. -/
structure Response where
  ok   : Bool
  data : Word
  deriving DecidableEq, Repr

end Sys2Proof
end

