-- ==== Sys2Proof/Config.lean ====
section
/-! DEFINITION. What is fixed for one block and is not state (`00_scope.md` rule R5, `10_state.md` rule
R21): the record types of the two configuration values `CAL_LAYOUT` and `FPFMT`, the numbers the source
fixes, and the free values. The VALUES of the two records, for this block, are `Config.calLayout` in
Machine/Operands.lean and `Config.fpfmt` in Machine/Float.lean. -/

namespace Sys2Proof.Config

/-- `NCAL` (R5): the number of calibration bytes. -/
def ncal : Nat := 21

/-- `CAL_BASE` (R5, R41): the address of the first calibration byte. -/
def calBase : Nat := 0x31

/-- `CAL_LAST` (R5, R41): the address of the last calibration byte. -/
def calLast : Nat := 0x45

/-- `NCOEF` (R5): the number of coefficients. -/
def ncoef : Nat := 14

/-- `BIAS` (R5, R115): subtracted from the stored p1 and p2. -/
def bias : Int := 16384

/-- `CAL_LAYOUT` (R5, R95): for each coefficient the offset of its byte, or of the lower of its two
bytes (the upper one is at the next offset, R42). -/
structure CalLayout where
  t1  : Nat
  t2  : Nat
  t3  : Nat
  p1  : Nat
  p2  : Nat
  p3  : Nat
  p4  : Nat
  p5  : Nat
  p6  : Nat
  p7  : Nat
  p8  : Nat
  p9  : Nat
  p10 : Nat
  p11 : Nat
  deriving DecidableEq, Repr

/-- `FPFMT` with `FPROUND` (R5, R120): the format and the operations of R94, R121 and R123 as one record.
`fbits d x` is the pattern of `x`, and `d` is the pattern to take where `x` is a NaN. -/
structure FpFormat where
  fval  : Word → F32
  fbits : Word → F32 → Word
  add   : F32 → F32 → F32
  sub   : F32 → F32 → F32
  mul   : F32 → F32 → F32
  cvt   : Int → F32
  scale : F32 → Int → F32

/-- FREE VALUE (R125, U1): the sign bit of the `k`-th NaN pattern drawn. Nothing constrains it.
DESIGN CHOICE, log entry 5. -/
opaque nanSign : Nat → BitVec 1

/-- FREE VALUE (R125, U1): the fraction, less one, of the `k`-th NaN pattern drawn. R125 bounds a NaN's
fraction by `f != 0` and nothing else, so the draw runs over 0 .. 2^23 - 2 and one is added to it.
DESIGN CHOICE, log entry 5. -/
opaque nanFraction : Nat → Fin 8388607

end Sys2Proof.Config
end

