-- ==== Sys2Proof/Machine/Operands.lean ====
section
/-! DEFINITION. Operands: the legality of an address and of a selector, raw-count assembly, the field
extraction primitives and the position of each coefficient (`20_memory.md` rule R41, `30_encoding.md` rule
R63, `40_operand_load.md` rule R84, `41_calibration_decode.md` rules R90 to R95, `43_readout_system.md`
rule R150). -/

namespace Sys2Proof

/-- `CAL_LAYOUT` for this block (R95): the fields one after another in the order of the names. PRESUMED
(K1), log entry 9. -/
def Config.calLayout : Config.CalLayout :=
  { t1 := 0, t2 := 2, t3 := 4, p1 := 5, p2 := 7, p3 := 9, p4 := 10, p5 := 11, p6 := 13
    p7 := 15, p8 := 16, p9 := 17, p10 := 19, p11 := 20 }

namespace Machine

/-- R41: the legal calibration addresses. -/
def legalCalAddr (a : Byte) : Bool :=
  decide (Config.calBase ≤ a.toNat) && decide (a.toNat ≤ Config.calLast)

/-- R41: the offset `o = a - 0x31` of a calibration address. -/
def calOffset (a : Byte) : Nat := a.toNat - Config.calBase

/-- What an `RD` selector names: the table of R150. -/
inductive ReadItem where
  | coef (index : Nat)
  | tlin
  | press
  | rawt
  | rawp
  | status
  | calw
  | cal (addr : Byte)
  deriving DecidableEq, Repr

/-- R150, first column: the item a selector names; none for the 215 illegal selectors. -/
def readItem (sel : Byte) : Option ReadItem :=
  if sel.toNat < Config.ncoef then some (.coef sel.toNat)
  else if sel = 0x10#8 then some .tlin
  else if sel = 0x11#8 then some .press
  else if sel = 0x12#8 then some .rawt
  else if sel = 0x13#8 then some .rawp
  else if sel = 0x20#8 then some .status
  else if sel = 0x21#8 then some .calw
  else if legalCalAddr sel then some (.cal sel)
  else none

/-- R150: the legal set of selectors. -/
def legalSel (sel : Byte) : Bool := (readItem sel).isSome

/-- R84, zero-extended to its 32-bit container (R81, R82): `0, MSB, LSB, XLSB`, most significant first. -/
def raw24 (xlsb lsb msb : Byte) : Word := 0#8 ++ msb ++ lsb ++ xlsb

/-- R90: the unsigned reading of a byte. -/
def u8 (x : Byte) : Int := x.toNat

/-- R91: the two's-complement reading of a byte. PRESUMED (K5), log entry 11. -/
def s8 (x : Byte) : Int := if x.toNat ≤ 127 then u8 x else u8 x - 256

/-- R92: the unsigned little-endian reading of two bytes. -/
def u16le (lo hi : Byte) : Int := u8 lo + 256 * u8 hi

/-- R93: the two's-complement reading of the same 16 bits. -/
def s16le (lo hi : Byte) : Int :=
  let n := u16le lo hi
  if n ≤ 32767 then n else n - 65536

end Machine

end Sys2Proof
end

