-- ==== Sys2Proof/Syntax.lean ====
section
/-! DEFINITION. The nine commands of CCB-1, one constructor for each row of `opcode_table.json`
(`30_encoding.md` rules R62, R63, R64). Operands are the unsigned bit fields of R63, in the assembler's
order (R68). -/

namespace Sys2Proof

inductive Instr where
  /-- `RST` (R151). -/
  | rst
  /-- `LDCAL addr, byte` (R80). -/
  | ldcal (addr byte : Byte)
  /-- `LDRAWT xlsb, lsb, msb` (R81). -/
  | ldrawt (xlsb lsb msb : Byte)
  /-- `LDRAWP xlsb, lsb, msb` (R82). -/
  | ldrawp (xlsb lsb msb : Byte)
  /-- `LDT fbits` (R83). -/
  | ldt (fbits : Word)
  /-- `DECODE` (R111). -/
  | decode
  /-- `COMPT` (R127). -/
  | compt
  /-- `COMPP` (R128). -/
  | compp
  /-- `RD sel` (R150). -/
  | rd (sel : Byte)
  deriving DecidableEq, Repr

end Sys2Proof
end

