-- ==== Sys2Proof/WellFormed.lean ====
section
/-! DEFINITION. Which terms of `Instr` are commands: the value conditions of `30_encoding.md` rule R64 that
the fields' widths do not already say. -/

namespace Sys2Proof

/-- R64, last column. -/
def Instr.wf : Instr → Bool
  | .rst => true
  | .ldcal addr _ => Machine.legalCalAddr addr
  | .ldrawt _ _ _ => true
  | .ldrawp _ _ _ => true
  | .ldt _ => true
  | .decode => true
  | .compt => true
  | .compp => true
  | .rd sel => Machine.legalSel sel

end Sys2Proof
end

