-- ==== Sys2Proof/Decode.lean ====
section
/-! DEFINITION. Decoding, total on all 2^40 words, and encoding (`30_encoding.md` rules R60 to R65, R70). -/

namespace Sys2Proof

/-- Why a word is illegal (R65), in the order of R70. -/
inductive IllegalWord where
  /-- R70 step 2: `OP` is none of the nine opcodes. -/
  | unassignedOp (op : Byte)
  /-- R70 step 3: a must-be-zero bit is 1. -/
  | mustBeZero (op : Byte)
  /-- R70 step 4: an `LDCAL` address outside 0x31..0x45. -/
  | badAddress (addr : Byte)
  /-- R70 step 4: an `RD` selector outside the legal set. -/
  | badSelector (sel : Byte)
  deriving DecidableEq, Repr

/-- `OP = CW[39:32]` (R60). -/
def opField (w : CommandWord) : Byte := w.extractLsb' 32 8

/-- `DATA = CW[31:0]` (R60). -/
def dataField (w : CommandWord) : Word := w.extractLsb' 0 32

/-- The byte of the word whose lowest bit is `lo`: `ADDR`, `BYTE`, `XLSB`, `LSB`, `MSB`, `SEL` (R63). -/
def byteField (w : CommandWord) (lo : Nat) : Byte := w.extractLsb' lo 8

/-- R70 step 3: the `n` must-be-zero bits from bit `lo` up. -/
def requireZero (w : CommandWord) (lo n : Nat) (rest : Except IllegalWord Instr) :
    Except IllegalWord Instr :=
  if w.extractLsb' lo n = 0#n then rest else .error (.mustBeZero (opField w))

/-- R70: the command a word is, or why it is illegal. It reads no state. -/
def decode (w : CommandWord) : Except IllegalWord Instr :=
  let op := opField w
  if op = 0x01#8 then requireZero w 0 32 (.ok .rst)
  else if op = 0x10#8 then requireZero w 16 16 (
    let addr := byteField w 8
    if Machine.legalCalAddr addr then .ok (.ldcal addr (byteField w 0)) else .error (.badAddress addr))
  else if op = 0x11#8 then
    requireZero w 24 8 (.ok (.ldrawt (byteField w 0) (byteField w 8) (byteField w 16)))
  else if op = 0x12#8 then
    requireZero w 24 8 (.ok (.ldrawp (byteField w 0) (byteField w 8) (byteField w 16)))
  else if op = 0x13#8 then .ok (.ldt (dataField w))
  else if op = 0x20#8 then requireZero w 0 32 (.ok .decode)
  else if op = 0x21#8 then requireZero w 0 32 (.ok .compt)
  else if op = 0x22#8 then requireZero w 0 32 (.ok .compp)
  else if op = 0x30#8 then requireZero w 8 24 (
    let sel := byteField w 0
    if Machine.legalSel sel then .ok (.rd sel) else .error (.badSelector sel))
  else .error (.unassignedOp op)

/-- R64: the opcode of a command. -/
def opcode : Instr → Byte
  | .rst => 0x01#8
  | .ldcal _ _ => 0x10#8
  | .ldrawt _ _ _ => 0x11#8
  | .ldrawp _ _ _ => 0x12#8
  | .ldt _ => 0x13#8
  | .decode => 0x20#8
  | .compt => 0x21#8
  | .compp => 0x22#8
  | .rd _ => 0x30#8

/-- R62: the `DATA` field of a command in its format (Z, CAL, RAW, F32 or SEL). -/
def operandData : Instr → Word
  | .rst => 0#32
  | .ldcal addr byte => 0#16 ++ addr ++ byte
  | .ldrawt xlsb lsb msb => 0#8 ++ msb ++ lsb ++ xlsb
  | .ldrawp xlsb lsb msb => 0#8 ++ msb ++ lsb ++ xlsb
  | .ldt fbits => fbits
  | .decode => 0#32
  | .compt => 0#32
  | .compp => 0#32
  | .rd sel => 0#24 ++ sel

/-- The word of a command (R60, R62, R64). -/
def encode (i : Instr) : CommandWord := opcode i ++ operandData i

/-- The command word a row of `opcode_table.json` stands for: the table gives every row 40 bits and numbers
them as R60 does, so the number is the word. None where the number does not fit in 40 bits. -/
def tableWord (nbits w : Nat) : Option CommandWord :=
  let v := w % 2 ^ nbits
  if v < 2 ^ 40 then some (BitVec.ofNat 40 v) else none

/-- The command the decoder reads from a row's number (none: illegal). -/
def decodeTableWord (nbits w : Nat) : Option Instr :=
  match tableWord nbits w with
  | none => none
  | some cw => (decode cw).toOption

end Sys2Proof
end

