-- ==== Sys2Proof/Machine/State.lean ====
section
/-! DEFINITION. The architectural state (`10_state.md` rules R10 to R23) and, beside it, the two ends of the
one host (`30_encoding.md` rules R61, R71; `20_memory.md` rule R53). -/

namespace Sys2Proof.Machine

/-- The calibration space `CAL` (R11, R40): the bytes whose value is not the one an unlisted address reads
as, by rising address. -/
abbrev Memory := List Host.Cell

/-- What an address that is not listed reads as. R22: a byte that has not been written holds no value and
no command reads it. DESIGN CHOICE, log entry 2: 0x00. -/
def blankByte : Byte := 0x00#8

/-- The canonical form: addresses strictly rising, and no entry equal to what an unlisted address reads as. -/
abbrev Memory.wf (m : Memory) : Prop :=
  m.Pairwise (fun x y => x.1 < y.1) ∧ ∀ c ∈ m, c.2 ≠ blankByte

/-- The coefficient file `COEF[0..13]` under the names of R14, as binary32 patterns. -/
structure Coefs where
  t1  : Word
  t2  : Word
  t3  : Word
  p1  : Word
  p2  : Word
  p3  : Word
  p4  : Word
  p5  : Word
  p6  : Word
  p7  : Word
  p8  : Word
  p9  : Word
  p10 : Word
  p11 : Word
  deriving DecidableEq, Repr

/-- What the host can do to the block between two commands: present a command word on the command port
(R61), or assert the `rst` input (R61, R190). DESIGN CHOICE, log entries 3 and 6. -/
inductive HostInput where
  | command (w : CommandWord)
  | resetPin
  deriving DecidableEq, Repr

/-- The block's state, and the host's two ends of its ports. The order of the fields has no meaning; those
that a command always changes stand first, so that a check that two states differ ends early. -/
structure State where
  /-- Not state of the block: what the one host still has to present, the next first (R52, R53, R200). -/
  inputs : List HostInput
  /-- Not state of the block: the responses given so far, the newest first (R71, R200). -/
  responses : List Response
  /-- `ERR`, the 4-bit fault code (R10, R20). -/
  err    : BitVec 4
  /-- `V.COEF` (R10, R17). -/
  vCoef  : Bool
  /-- `V.RAWT` (R10, R17). -/
  vRawt  : Bool
  /-- `V.RAWP` (R10, R17). -/
  vRawp  : Bool
  /-- `V.TLIN` (R10, R17). -/
  vTlin  : Bool
  /-- `V.PRESS` (R10, R17). -/
  vPress : Bool
  /-- The model's own field, not the spec's: how many NaN patterns have been drawn (R125; log entry 5). -/
  nanDraws : Nat
  /-- `CALW`, 21 bits (R10, R12). -/
  calw   : BitVec 21
  /-- `CAL[0x31..0x45]`, 21 × 8 (R10, R11). -/
  cal    : Memory
  /-- `RAWT`, 32 bits, bits 31:24 are 0 (R10, R13). -/
  rawt   : Word
  /-- `RAWP`, 32 bits, bits 31:24 are 0 (R10, R13). -/
  rawp   : Word
  /-- `TLIN`, a binary32 pattern (R10, R15). -/
  tlin   : Word
  /-- `PRESS`, a binary32 pattern (R10, R16). -/
  press  : Word
  /-- `COEF[0..13]`, 14 × 32 (R10, R14). -/
  coef   : Coefs
  deriving DecidableEq, Repr

/-- Why a step stops with a fault: never. The three faults of R161 are effects of a command that the spec
describes in full (R160), so they are next states with `ERR` written, and every word and every state has
an effect (R70, R165). Safe: nothing is cut off. DEDUCED, log entry 14. -/
inductive Fault where
  deriving DecidableEq, Repr

/-- Why a step is refused. -/
inductive Refusal where
  /-- An arm of `exec` whose command has no meaning yet. No arm is left so; safe (the run stops). -/
  | notModelled (mnemonic : String)
  deriving DecidableEq, Repr

/-- The coefficient file with nothing in it. R23 gives the coefficients no value at reset; the model holds
zeros there that no command reads (R22). DESIGN CHOICE, log entry 1. -/
def Coefs.blank : Coefs :=
  { t1 := 0#32, t2 := 0#32, t3 := 0#32, p1 := 0#32, p2 := 0#32, p3 := 0#32, p4 := 0#32, p5 := 0#32
    p6 := 0#32, p7 := 0#32, p8 := 0#32, p9 := 0#32, p10 := 0#32, p11 := 0#32 }

/-- The state right after reset (R23, R190, R191): `CALW`, the five flags and `ERR` are 0. The data
registers hold no value there; the zeros in `rawt`, `rawp`, `coef`, `tlin` and `press` are the model's
(DESIGN CHOICE, log entry 1) and no command reads them. The host has presented nothing and has been
answered nothing. `nanDraws` starts at 0 (DESIGN CHOICE, log entry 5). -/
def State.reset : State :=
  { inputs := [], responses := [], err := 0#4
    vCoef := false, vRawt := false, vRawp := false, vTlin := false, vPress := false
    nanDraws := 0, calw := 0#21, cal := [], rawt := 0#32, rawp := 0#32, tlin := 0#32, press := 0#32
    coef := Coefs.blank }

end Sys2Proof.Machine
end

