-- ==== Sys2Proof/Machine/Flags.lean ====
section
/-! DEFINITION. The written-mask, the valid flags and the views made from them (`10_state.md` rules R12, R17,
R18, R20; `30_encoding.md` rule R61). No arithmetic flag exists (R17, R126). -/

namespace Sys2Proof.Machine

/-- R12: the condition `CALW = 0x1FFFFF`. -/
def State.calFull (s : State) : Bool := s.calw == 0x1FFFFF#21

/-- R12: `CALW` with bit `o` set. -/
def markWritten (calw : BitVec 21) (o : Nat) : BitVec 21 := calw ||| (1#21 <<< o)

/-- R18: the `STATUS` view; bits 31:6 read as 0. -/
def State.status (s : State) : Word :=
  0#26 ++ BitVec.ofBool s.vPress ++ BitVec.ofBool s.vTlin ++ BitVec.ofBool s.vRawp
    ++ BitVec.ofBool s.vRawt ++ BitVec.ofBool s.vCoef ++ BitVec.ofBool s.calFull

/-- R18: the `CALW` view, zero-extended to 32 bits. -/
def State.calwView (s : State) : Word := s.calw.zeroExtend 32

/-- R167: the faulted state. -/
def State.faulted (s : State) : Bool := s.err != 0#4

/-- R61: the `fault` output, 1 exactly when `ERR != 0`. -/
def State.faultOut (s : State) : BitVec 1 := BitVec.ofBool s.faulted

end Sys2Proof.Machine
end

