-- ==== Sys2Proof/Machine/Float.lean ====
section
/-! DEFINITION. The floating-point format `FPFMT` of this block: IEEE 754 binary32 with round-to-nearest,
ties-to-even (`42_compensation.md` rules R120 to R125, `41_calibration_decode.md` rule R94). Magnitudes are
natural numbers counted in units of 2^-149, so every operation computes its exact result first and rounds
it once. PRESUMED (K3, K4), log entries 10 and 13. -/

namespace Sys2Proof

namespace Machine

/-- R120: the value a 32-bit pattern denotes. A normal number `(2^23 + f) * 2^(e - 150)` is
`(2^23 + f) * 2^(e - 1)` units of 2^-149, a subnormal number is `f` of them. -/
def fval (u : Word) : F32 :=
  let s := u.getLsbD 31
  let e := (u.extractLsb' 23 8).toNat
  let f := (u.extractLsb' 0 23).toNat
  if e = 255 then (if f = 0 then .inf s else .nan)
  else if e = 0 then .fin s f
  else .fin s ((2 ^ 23 + f) * 2 ^ (e - 1))

/-- The pattern with sign `s`, exponent field `e` and fraction field `f` (R120). -/
def patternOf (s : BitVec 1) (e f : Nat) : Word := s ++ BitVec.ofNat 8 e ++ BitVec.ofNat 23 f

/-- R6 `fbits`, by R120: the pattern of a value, `nanBits` being the pattern to take for a NaN (R125). -/
def fbits (nanBits : Word) : F32 → Word
  | .nan => nanBits
  | .inf s => patternOf (BitVec.ofBool s) 255 0
  | .fin s m =>
    if m < 2 ^ 23 then patternOf (BitVec.ofBool s) 0 m
    else
      let e := m.log2 - 22
      patternOf (BitVec.ofBool s) e (m / 2 ^ (e - 1) - 2 ^ 23)

/-- The spacing of the binary32 values around `q` units, were the exponent unbounded above: the least
power of two that leaves at most 24 significant bits, and never below one unit (R121, gradual underflow). -/
def spacing (q : Nat) : Nat := 2 ^ (q.log2 - 23)

/-- `FPROUND` (R5, R121): whether the remainder `r` of a division by `step` whose quotient is `m` goes up:
above the half way, or at it when the quotient is odd. -/
def roundsUp (m r step : Nat) : Bool := decide (step < 2 * r) || (decide (2 * r = step) && m % 2 == 1)

/-- R121: the magnitude `n / d` units rounded once, with an exponent unbounded above. -/
def roundMag (n d : Nat) : Nat :=
  let ulp := spacing (n / d)
  let step := ulp * d
  let m := n / step
  (if roundsUp m (n % step) step then m + 1 else m) * ulp

/-- The overflow threshold 2^128 (R121), in units of 2^-149. -/
def overflowMag : Nat := 2 ^ 128 * 2 ^ 149

/-- R121, first point: a result of magnitude at least 2^128 after rounding is the infinity of its sign. -/
def roundToF32 (neg : Bool) (n d : Nat) : F32 :=
  let m := roundMag n d
  if overflowMag ≤ m then .inf neg else .fin neg m

/-- The value with the other sign. -/
def fneg : F32 → F32
  | .nan => .nan
  | .inf s => .inf (!s)
  | .fin s m => .fin (!s) m

/-- `x ⊕ y` (R121). -/
def fadd : F32 → F32 → F32
  | .nan, _ => .nan
  | _, .nan => .nan
  | .inf a, .inf b => if a = b then .inf a else .nan
  | .inf a, .fin _ _ => .inf a
  | .fin _ _, .inf b => .inf b
  | .fin a m, .fin b n =>
    if a = b then roundToF32 a (m + n) 1
    else if n < m then roundToF32 a (m - n) 1
    else if m < n then roundToF32 b (n - m) 1
    else .fin false 0

/-- `x ⊖ y` is `x ⊕ (-y)` (R121). -/
def fsub (x y : F32) : F32 := fadd x (fneg y)

/-- `x ⊗ y` (R121). The product of two counts of 2^-149 is a count of 2^-298. -/
def fmul : F32 → F32 → F32
  | .nan, _ => .nan
  | _, .nan => .nan
  | .inf a, .inf b => .inf (a ^^ b)
  | .inf a, .fin b n => if n = 0 then .nan else .inf (a ^^ b)
  | .fin a m, .inf b => if m = 0 then .nan else .inf (a ^^ b)
  | .fin a m, .fin b n => roundToF32 (a ^^ b) (m * n) (2 ^ 149)

/-- `cvt n` (R123): the binary32 value nearest to an integer; `cvt 0` is `+0.0`. -/
def cvt (n : Int) : F32 := roundToF32 (decide (n < 0)) (n.natAbs * 2 ^ 149) 1

/-- `scale x k` (R94): one division by 2^k, or one multiplication by 2^(-k) where k is negative. -/
def scale (x : F32) (k : Int) : F32 :=
  match x with
  | .nan => .nan
  | .inf s => .inf s
  | .fin s m =>
    if 0 ≤ k then roundToF32 s m (2 ^ k.toNat) else roundToF32 s (m * 2 ^ (-k).toNat) 1

/-- R125, U1: the `k`-th NaN pattern drawn: `e = 255`, `f != 0`, and nothing else is known of it. -/
def drawnNaN (k : Nat) : Word := patternOf (Config.nanSign k) 255 ((Config.nanFraction k).val + 1)

end Machine

/-- `FPFMT` with `FPROUND` for this block (R120). -/
def Config.fpfmt : Config.FpFormat :=
  { fval := Machine.fval, fbits := Machine.fbits, add := Machine.fadd, sub := Machine.fsub
    mul := Machine.fmul, cvt := Machine.cvt, scale := Machine.scale }

end Sys2Proof
end

