-- ==== Sys2Proof/Machine/Ops.lean ====
section
/-! DEFINITION. The operations every command shares: the calibration memory, the coefficient file, writing a
register together with its flag, the response, raising a fault, the prologue and reset (`20_memory.md`
rule R44, `30_encoding.md` rule R71, `60_exceptions.md` rules R160 to R168, `70_reset_and_hazards.md` rules
R190, R191). -/

namespace Sys2Proof.Machine

/-- What one command gives. -/
abbrev Result := Host.Outcome State Fault Refusal

/-! ### The calibration memory -/

/-- The byte at an address. -/
def Memory.read : Memory → Nat → Byte
  | [], _ => blankByte
  | (b, v) :: rest, a => if a = b then v else Memory.read rest a

/-- The memory with a byte stored, in the canonical form. -/
def Memory.write : Memory → Nat → Byte → Memory
  | [], a, v => if v = blankByte then [] else [(a, v)]
  | (b, w) :: rest, a, v =>
    if a < b then (if v = blankByte then (b, w) :: rest else (a, v) :: (b, w) :: rest)
    else if a = b then (if v = blankByte then rest else (a, v) :: rest)
    else (b, w) :: Memory.write rest a v

/-- `MemWrite(a, 1, v)` (R44): the byte and its `CALW` bit. Used for legal addresses only (R80). -/
def State.memWrite (s : State) (a v : Byte) : State :=
  { s with cal := s.cal.write a.toNat v, calw := markWritten s.calw (calOffset a) }

/-- `MemRead(a, 1)` (R44): none where the byte holds no value. Used for legal addresses only (R150). -/
def State.memRead (s : State) (a : Byte) : Option Byte :=
  if s.calw.getLsbD (calOffset a) then some (s.cal.read a.toNat) else none

/-- `b[o]` (R41): the byte at offset `o`, which is `MemRead(0x31 + o, 1)` where its `CALW` bit is set. -/
def State.calByte (s : State) (o : Nat) : Byte := s.cal.read (Config.calBase + o)

/-! ### The coefficient file -/

/-- `COEF[i]` (R14). -/
def Coefs.get (c : Coefs) : Nat → Word
  | 0 => c.t1
  | 1 => c.t2
  | 2 => c.t3
  | 3 => c.p1
  | 4 => c.p2
  | 5 => c.p3
  | 6 => c.p4
  | 7 => c.p5
  | 8 => c.p6
  | 9 => c.p7
  | 10 => c.p8
  | 11 => c.p9
  | 12 => c.p10
  | _ => c.p11

/-! ### Writing a register and its flag, in the same step (R17) -/

def State.writeRawt (s : State) (v : Word) : State := { s with rawt := v, vRawt := true }

def State.writeRawp (s : State) (v : Word) : State := { s with rawp := v, vRawp := true }

def State.writeCoef (s : State) (c : Coefs) : State := { s with coef := c, vCoef := true }

def State.writeTlin (s : State) (u : Word) : State := { s with tlin := u, vTlin := true }

def State.writePress (s : State) (u : Word) : State := { s with press := u, vPress := true }

/-- The pattern of a computed value. R125: where the value is a NaN the pattern is the next one drawn. -/
def State.computedBits (s : State) (x : F32) : Word := Config.fpfmt.fbits (drawnNaN s.nanDraws) x

/-- R131: where a computed value is a NaN, the next NaN is a fresh draw. -/
def State.afterDraw (s : State) (x : F32) : State :=
  { s with nanDraws := if x = .nan then s.nanDraws + 1 else s.nanDraws }

/-! ### Responses, faults and reset -/

/-- `respond(ok, data)` (R71). -/
def State.respond (s : State) (ok : Bool) (data : Word) : State :=
  { s with responses := { ok := ok, data := data } :: s.responses }

/-- The command completes: `respond(1, data)`. -/
def complete (data : Word) (s : State) : Result := .next (s.respond true data)

/-- The three faults (R161). -/
inductive FaultCause where
  | illegalCommand
  | calIncomplete
  | notReady
  deriving DecidableEq, Repr

/-- R161: the fault codes. -/
def FaultCause.code : FaultCause → BitVec 4
  | .illegalCommand => 1#4
  | .calIncomplete => 2#4
  | .notReady => 3#4

/-- `zext_32` of a fault code (R71). -/
def codeData (c : BitVec 4) : Word := c.zeroExtend 32

/-- `raise F` (R160, R166): `ERR` receives the code, the response carries it, and nothing else changes. -/
def raise (f : FaultCause) (s : State) : Result :=
  .next ({ s with err := f.code }.respond false (codeData f.code))

/-- R165 step 1, R167: the command is absorbed, with the first fault's code as its answer. -/
def absorb (s : State) : Result := .next (s.respond false (codeData s.err))

/-- R165 step 1: what every word but the legal `RST` word goes through first. -/
def unlessFaulted (s : State) (run : Result) : Result := if s.faulted then absorb s else run

/-- R190, R191, R168: the full reset state, by `RST` or by the `rst` pin; the way out of the faulted state.
The host's two ends and the count of draws are not state of the block and go on. -/
def State.resetBlock (s : State) : State :=
  { State.reset with inputs := s.inputs, responses := s.responses, nanDraws := s.nanDraws }

/-- R162, R165 step 2: an illegal word. -/
def execIllegal (_why : IllegalWord) (s : State) : Result := unlessFaulted s (raise .illegalCommand s)

/-! ### The command port -/

/-- The next thing the host does, and the state with it taken (R52, R61). -/
def State.takeInput (s : State) : Option (HostInput × State) :=
  match s.inputs with
  | [] => none
  | i :: rest => some (i, { s with inputs := rest })

/-- The host's end with a word put in front of what it has still to present. -/
def State.present (s : State) (w : CommandWord) : State :=
  { s with inputs := .command w :: s.inputs }

end Sys2Proof.Machine
end

