-- ==== Sys2Proof/Machine/Calibration.lean ====
section
/-! DEFINITION. The calibration coefficient decoder (`41_calibration_decode.md` rules R94 to R111). -/

namespace Sys2Proof.Machine

/-- The kind of a field (R96, column "extraction"). -/
inductive FieldKind where
  | u16
  | s16
  | s8
  deriving DecidableEq, Repr

/-- The stored integer of the field at offset `o` (R91, R92, R93; R42 for the byte order). -/
def stored (b : Nat → Byte) (kind : FieldKind) (o : Nat) : Int :=
  match kind with
  | .u16 => u16le (b o) (b (o + 1))
  | .s16 => s16le (b o) (b (o + 1))
  | .s8 => s8 (b o)

/-- `scale(cvt(n), k)` as a register's pattern (R94). No value of the decoder is a NaN (R112); were one,
its pattern would be a drawn one (R125). -/
def scaled (n k : Int) : Word :=
  Config.fpfmt.fbits (drawnNaN 0) (Config.fpfmt.scale (Config.fpfmt.cvt n) k)

/-- The 14 coefficients of the bytes `b[o]`: the table of R96 and the rules R97 to R110, row by row. -/
def decodeCoefs (L : Config.CalLayout) (b : Nat → Byte) : Coefs where
  t1  := scaled (stored b .u16 L.t1) (-8)
  t2  := scaled (stored b .u16 L.t2) 30
  t3  := scaled (stored b .s8 L.t3) 48
  p1  := scaled (stored b .u16 L.p1 - Config.bias) 20
  p2  := scaled (stored b .s16 L.p2 - Config.bias) 29
  p3  := scaled (stored b .s8 L.p3) 32
  p4  := scaled (stored b .s8 L.p4) 37
  p5  := scaled (stored b .u16 L.p5) (-3)
  p6  := scaled (stored b .u16 L.p6) 6
  p7  := scaled (stored b .s8 L.p7) 8
  p8  := scaled (stored b .s8 L.p8) 15
  p9  := scaled (stored b .s16 L.p9) 48
  p10 := scaled (stored b .s8 L.p10) 48
  p11 := scaled (stored b .s8 L.p11) 65

/-- `DECODE` (R111). -/
def execDecode (s : State) : Result :=
  unlessFaulted s (
    if s.calFull then complete 0#32 (s.writeCoef (decodeCoefs Config.calLayout s.calByte))
    else raise .calIncomplete s)

end Sys2Proof.Machine
end

