-- ==== Sys2Proof/Machine/Compensation.lean ====
section
/-! DEFINITION. The compensation polynomial evaluator (`42_compensation.md` rules R122 to R132). Each `+`,
`-` and `×` of the two formulas is one operation of R121, left to right, none fused (R122). -/

namespace Sys2Proof.Machine

/-- `r = cvt(RAW[23:0])` (R123): a raw count as a floating-point value, unsigned. -/
def rawValue (raw : Word) : F32 := Config.fpfmt.cvt (raw.extractLsb' 0 24).toNat

/-- `d1 = r ⊖ T1` (R127). -/
def tempD1 (c : Coefs) (r : F32) : F32 := Config.fpfmt.sub r (Config.fpfmt.fval c.t1)

/-- `d2 = d1 ⊗ T2` (R127). -/
def tempD2 (c : Coefs) (r : F32) : F32 := Config.fpfmt.mul (tempD1 c r) (Config.fpfmt.fval c.t2)

/-- `u = (d1 ⊗ d1) ⊗ T3` (R127). -/
def tempU (c : Coefs) (r : F32) : F32 :=
  Config.fpfmt.mul (Config.fpfmt.mul (tempD1 c r) (tempD1 c r)) (Config.fpfmt.fval c.t3)

/-- `compensate_temperature` (R127): `d2 ⊕ u`. -/
def compensateTemperature (c : Coefs) (r : F32) : F32 := Config.fpfmt.add (tempD2 c r) (tempU c r)

/-- `x² = x ⊗ x` (R124). -/
def square (x : F32) : F32 := Config.fpfmt.mul x x

/-- `x³ = (x ⊗ x) ⊗ x` (R124). -/
def cube (x : F32) : F32 := Config.fpfmt.mul (square x) x

/-- `((k0 ⊕ k1 ⊗ T) ⊕ k2 ⊗ T²) ⊕ k3 ⊗ T³` (R128): the shape of `out1` and of `q`. -/
def cubic (k0 k1 k2 k3 : Word) (T : F32) : F32 :=
  let a1 := Config.fpfmt.mul (Config.fpfmt.fval k1) T
  let a2 := Config.fpfmt.mul (Config.fpfmt.fval k2) (square T)
  let a3 := Config.fpfmt.mul (Config.fpfmt.fval k3) (cube T)
  Config.fpfmt.add (Config.fpfmt.add (Config.fpfmt.add (Config.fpfmt.fval k0) a1) a2) a3

/-- `out1` (R128). -/
def pressOut1 (c : Coefs) (T : F32) : F32 := cubic c.p5 c.p6 c.p7 c.p8 T

/-- `q` (R128). -/
def pressQ (c : Coefs) (T : F32) : F32 := cubic c.p1 c.p2 c.p3 c.p4 T

/-- `out2 = r ⊗ q` (R128). -/
def pressOut2 (c : Coefs) (r T : F32) : F32 := Config.fpfmt.mul r (pressQ c T)

/-- `d2 = P9 ⊕ P10 ⊗ T` (R128). -/
def pressD2 (c : Coefs) (T : F32) : F32 :=
  Config.fpfmt.add (Config.fpfmt.fval c.p9) (Config.fpfmt.mul (Config.fpfmt.fval c.p10) T)

/-- `d3 = d1 ⊗ d2`, a product and never a sum (R128, R129). -/
def pressD3 (c : Coefs) (r T : F32) : F32 := Config.fpfmt.mul (square r) (pressD2 c T)

/-- `d4 = d3 ⊕ r³ ⊗ P11` (R128). -/
def pressD4 (c : Coefs) (r T : F32) : F32 :=
  Config.fpfmt.add (pressD3 c r T) (Config.fpfmt.mul (cube r) (Config.fpfmt.fval c.p11))

/-- `compensate_pressure` (R128): `(out1 ⊕ out2) ⊕ d4`. -/
def compensatePressure (c : Coefs) (r T : F32) : F32 :=
  Config.fpfmt.add (Config.fpfmt.add (pressOut1 c T) (pressOut2 c r T)) (pressD4 c r T)

/-- The value `COMPT` computes in a state (R127). -/
def State.temperature (s : State) : F32 := compensateTemperature s.coef (rawValue s.rawt)

/-- The value `COMPP` computes in a state (R128). -/
def State.pressure (s : State) : F32 :=
  compensatePressure s.coef (rawValue s.rawp) (Config.fpfmt.fval s.tlin)

/-- `COMPT` (R127). -/
def execCompt (s : State) : Result :=
  unlessFaulted s (
    if s.vCoef && s.vRawt then
      complete 0#32 ((s.afterDraw s.temperature).writeTlin (s.computedBits s.temperature))
    else raise .notReady s)

/-- `COMPP` (R128). -/
def execCompp (s : State) : Result :=
  unlessFaulted s (
    if s.vCoef && s.vRawp && s.vTlin then
      complete 0#32 ((s.afterDraw s.pressure).writePress (s.computedBits s.pressure))
    else raise .notReady s)

end Sys2Proof.Machine
end

