-- ==== Sys2Proof/Machine/Load.lean ====
section
/-! DEFINITION. The operand load commands (`40_operand_load.md` rules R80 to R84). -/

namespace Sys2Proof.Machine

/-- `LDCAL addr, byte` (R80). An address outside 0x31..0x45 is no command (R162; DEDUCED, log entry 15). -/
def execLdcal (addr byte : Byte) (s : State) : Result :=
  unlessFaulted s (
    if legalCalAddr addr then complete 0#32 (s.memWrite addr byte) else raise .illegalCommand s)

/-- `LDRAWT xlsb, lsb, msb` (R81). -/
def execLdrawt (xlsb lsb msb : Byte) (s : State) : Result :=
  unlessFaulted s (complete 0#32 (s.writeRawt (raw24 xlsb lsb msb)))

/-- `LDRAWP xlsb, lsb, msb` (R82). -/
def execLdrawp (xlsb lsb msb : Byte) (s : State) : Result :=
  unlessFaulted s (complete 0#32 (s.writeRawp (raw24 xlsb lsb msb)))

/-- `LDT fbits` (R83): the pattern is stored unchanged. -/
def execLdt (fbits : Word) (s : State) : Result :=
  unlessFaulted s (complete 0#32 (s.writeTlin fbits))

end Sys2Proof.Machine
end

