-- ==== Sys2Proof/Machine/Readout.lean ====
section
/-! DEFINITION. The read-out and system commands (`43_readout_system.md` rules R150, R151). -/

namespace Sys2Proof.Machine

/-- A register with its valid flag: its content, or none where it holds no value (R22). -/
def ifValid (valid : Bool) (data : Word) : Option Word := if valid then some data else none

/-- R150, the last two columns: the data of an item, or none where its condition fails. -/
def State.readData (s : State) : ReadItem → Option Word
  | .coef i => ifValid s.vCoef (s.coef.get i)
  | .tlin => ifValid s.vTlin s.tlin
  | .press => ifValid s.vPress s.press
  | .rawt => ifValid s.vRawt s.rawt
  | .rawp => ifValid s.vRawp s.rawp
  | .status => some s.status
  | .calw => some s.calwView
  | .cal addr => (s.memRead addr).map (fun b => b.zeroExtend 32)

/-- `RD sel` (R150). A selector outside the legal set is no command (R162). -/
def execRd (sel : Byte) (s : State) : Result :=
  unlessFaulted s (
    match readItem sel with
    | none => raise .illegalCommand s
    | some item =>
      match s.readData item with
      | none => raise .notReady s
      | some data => complete data s)

/-- `RST` (R151): the one command that also executes in the faulted state (R165). -/
def execRst (s : State) : Result := complete 0#32 s.resetBlock

end Sys2Proof.Machine
end

