-- ==== Sys2Proof/Machine/Dispatch.lean ====
section
/-! DEFINITION. One arm for each command of CCB-1 (`30_encoding.md` rule R64). -/

namespace Sys2Proof.Machine

def exec (i : Instr) (s : State) : Host.Outcome State Fault Refusal :=
  match i with
  | .rst => Sys2Proof.Machine.execRst s
  | .ldcal addr byte => Sys2Proof.Machine.execLdcal addr byte s
  | .ldrawt xlsb lsb msb => Sys2Proof.Machine.execLdrawt xlsb lsb msb s
  | .ldrawp xlsb lsb msb => Sys2Proof.Machine.execLdrawp xlsb lsb msb s
  | .ldt fbits => Sys2Proof.Machine.execLdt fbits s
  | .decode => Sys2Proof.Machine.execDecode s
  | .compt => Sys2Proof.Machine.execCompt s
  | .compp => Sys2Proof.Machine.execCompp s
  | .rd sel => Sys2Proof.Machine.execRd sel s

end Sys2Proof.Machine
end

