-- ==== Sys2Proof/Machine/Command.lean ====
section
/-! DEFINITION. The execution of one accepted command word (`60_exceptions.md` rule R165). -/

namespace Sys2Proof.Machine

/-- R165: a legal word is its command; an illegal word raises `ILLEGAL_COMMAND`. Step 1 of R165, the
absorption in the faulted state, stands in `unlessFaulted`, which every command but `RST` goes through. -/
def runWord (w : CommandWord) (s : State) : Host.Outcome State Fault Refusal :=
  match decode w with
  | .ok i => exec i s
  | .error why => execIllegal why s

/-- What the block does with the next thing its host does (R61, R190, R200). -/
def runInput (next : Option (HostInput × State)) (s : State) : Host.Outcome State Fault Refusal :=
  match next with
  | none => .next s
  | some (.resetPin, t) => .next t.resetBlock
  | some (.command w, t) => runWord w t

end Sys2Proof.Machine
end

