-- ==== Sys2Proof/Machine/Step.lean ====
section
/-! DEFINITION. One step: the block takes the next thing its host does and carries it out whole
(`20_memory.md` rule R52, `60_exceptions.md` rule R165). -/

namespace Sys2Proof.Machine

/-- One step. With nothing presented the block waits (R200: it "waits for a command for ever"); on the
`rst` input it resets, without a response (R61, R190, R191); a command word is executed (R165). DESIGN CHOICE,
log entries 3, 6 and 7. -/
def step (s : State) : Host.Outcome State Fault Refusal := runInput s.takeInput s

/-- `s` with a table row's word as the next command its host presents. The block fetches nothing (R19):
the host presents words, so the word goes in front of what the host has still to present. -/
def State.withFetchWord (s : State) (nbits w : Nat) : State :=
  match tableWord nbits w with
  | none => s
  | some cw => s.present cw

end Sys2Proof.Machine
end

