-- ==== Sys2Proof/Machine/Pseudo.lean ====
section
/-! DEFINITION. The assembler: how a command is written, and the pseudo-instructions with the commands each
expands to (`30_encoding.md` rules R68, R69). The block sees command words only. -/

namespace Sys2Proof.Machine

/-- A hexadecimal digit (R6). -/
def hexDigit (n : Nat) : Char := "0123456789ABCDEF".toList.getD n '0'

/-- A number in the notation of R6, with `digits` hexadecimal digits. -/
def hexLiteral (digits n : Nat) : String :=
  "0x" ++ String.ofList ((List.range digits).reverse.map (fun i => hexDigit (n / 16 ^ i % 16)))

/-- A byte operand as R68 writes it. -/
def byteLiteral (b : Byte) : String := hexLiteral 2 b.toNat

/-- R68, row `RD`: the names of the selectors. -/
def selectorName (sel : Byte) : Option String :=
  (readItem sel).map fun
    | .coef i => ["T1", "T2", "T3", "P1", "P2", "P3", "P4", "P5", "P6", "P7", "P8", "P9", "P10", "P11"].getD i ""
    | .tlin => "TLIN"
    | .press => "PRESS"
    | .rawt => "RAWT"
    | .rawp => "RAWP"
    | .status => "STATUS"
    | .calw => "CALW"
    | .cal addr => "CAL[" ++ byteLiteral addr ++ "]"

/-- R68: how a command is written; a selector without a name is written as its number. -/
def asmText : Instr → String
  | .rst => "RST"
  | .ldcal addr byte => "LDCAL " ++ byteLiteral addr ++ ", " ++ byteLiteral byte
  | .ldrawt xlsb lsb msb =>
    "LDRAWT " ++ byteLiteral xlsb ++ ", " ++ byteLiteral lsb ++ ", " ++ byteLiteral msb
  | .ldrawp xlsb lsb msb =>
    "LDRAWP " ++ byteLiteral xlsb ++ ", " ++ byteLiteral lsb ++ ", " ++ byteLiteral msb
  | .ldt fbits => "LDT " ++ hexLiteral 8 fbits.toNat
  | .decode => "DECODE"
  | .compt => "COMPT"
  | .compp => "COMPP"
  | .rd sel => "RD " ++ (selectorName sel).getD (byteLiteral sel)

/-- `LDRAWT.W n` (R69). -/
def pseudoLdrawtW (n : BitVec 24) : List Instr :=
  [.ldrawt (n.extractLsb' 0 8) (n.extractLsb' 8 8) (n.extractLsb' 16 8)]

/-- `LDRAWP.W n` (R69). -/
def pseudoLdrawpW (n : BitVec 24) : List Instr :=
  [.ldrawp (n.extractLsb' 0 8) (n.extractLsb' 8 8) (n.extractLsb' 16 8)]

/-- The `LDCAL` commands of a list of bytes, the address advancing by exactly one per byte (R69). -/
def ldcalFrom : Nat → List Byte → List Instr
  | _, [] => []
  | a, b :: bs => .ldcal (BitVec.ofNat 8 a) b :: ldcalFrom (a + 1) bs

/-- `LDCALBLK b0, ..., b20` (R69). -/
def pseudoLdcalblk (bytes : Vector Byte 21) : List Instr := ldcalFrom Config.calBase bytes.toList

/-- `LDT.F x` (R69), for the decimal literal `x = ± digits * 10^exp10`: rounded to binary32, ties to even. -/
def pseudoLdtF (neg : Bool) (digits : Nat) (exp10 : Int) : List Instr :=
  [.ldt (fbits (drawnNaN 0)
    (roundToF32 neg (digits * 10 ^ exp10.toNat * 2 ^ 149) (10 ^ (-exp10).toNat)))]

/-- `MEASURE pX, pL, pM, tX, tL, tM, b0, ..., b20` (R69): 28 commands, the last two of which read the
Measurement out. -/
def pseudoMeasure (pX pL pM tX tL tM : Byte) (bytes : Vector Byte 21) : List Instr :=
  .ldrawp pX pL pM :: .ldrawt tX tL tM ::
    (pseudoLdcalblk bytes).append [.decode, .compt, .compp, .rd 0x10#8, .rd 0x11#8]

end Sys2Proof.Machine
end

