-- ==== Sys2Proof/Safety.lean ====
section
/-! DEFINITION. The terms claims use: the invariant of the block, what counts as having ended well, and when
two states differ only where nothing is held. -/

namespace Sys2Proof.Machine

/-- R114: the least integer of coefficient `i` after extraction and bias. -/
def coefMin (i : Nat) : Int :=
  [0, 0, -128, -16384, -49152, -128, -128, 0, 0, -128, -128, -32768, -128, -128].getD i 0

/-- R114: the greatest integer of coefficient `i` after extraction and bias. -/
def coefMax (i : Nat) : Int :=
  [65535, 65535, 127, 49151, 16383, 127, 127, 65535, 65535, 127, 127, 32767, 127, 127].getD i 0

/-- R96: the exponent `k` of coefficient `i`. -/
def coefExp (i : Nat) : Int := [-8, 30, 48, 20, 29, 32, 37, -3, 6, 8, 15, 48, 48, 65].getD i 0

/-- The real number `n * 2^(-k)`, for `k <= 149` (every exponent of R96): `|n| * 2^(149 - k)` units of
2^-149, and `+0.0` for `n = 0` (R112). -/
def exactScaled (n k : Int) : F32 := .fin (decide (n < 0)) (n.natAbs * 2 ^ (149 - k).toNat)

/-- R112, R114: a pattern that coefficient `i` can hold. -/
def CoefPattern (i : Nat) (u : Word) : Prop :=
  ∃ n : Int, coefMin i ≤ n ∧ n ≤ coefMax i ∧ fval u = exactScaled n (coefExp i)

/-- A finite value of magnitude below the whole number `b`. -/
def BoundedBy (x : F32) (b : Nat) : Prop := ∃ neg m, x = .fin neg m ∧ m < b * 2 ^ 149

/-- What holds in every state a run can reach. -/
structure State.Inv (s : State) : Prop where
  /-- The memory has its canonical form. -/
  calWf : s.cal.wf
  /-- R11: nothing is stored outside 0x31..0x45. -/
  calRange : ∀ c ∈ s.cal, 0x31 ≤ c.1 ∧ c.1 ≤ 0x45
  /-- R12: a stored byte has its `CALW` bit. -/
  calWritten : ∀ c ∈ s.cal, s.calw.getLsbD (c.1 - 0x31) = true
  /-- R13: bits 31:24 of `RAWT` are 0. -/
  rawtFits : s.rawt.toNat < 2 ^ 24
  /-- R13: bits 31:24 of `RAWP` are 0. -/
  rawpFits : s.rawp.toNat < 2 ^ 24
  /-- R20: the codes 4 to 15 are never written. -/
  errLegal : s.err.toNat ≤ 3
  /-- R112, R114: each coefficient is a value `DECODE` can write. -/
  coefLegal : ∀ i < 14, CoefPattern i (s.coef.get i)
  /-- R111, R17: the coefficients are valid only after all 21 bytes were written. -/
  coefAfterCal : s.vCoef = true → s.calw = 0x1FFFFF#21
  /-- R128, R17: the pressure is valid only after everything `COMPP` reads. -/
  pressAfterInputs : s.vPress = true → s.vCoef = true ∧ s.vRawp = true ∧ s.vTlin = true

/-- R200: no response had `ok = 0`. -/
def State.endedWell (s : State) : Prop := ∀ r ∈ s.responses, r.ok = true

/-- The two states are the same but for the contents of registers and bytes that hold no value (R22): what
`CALW` and the valid flags do not vouch for may differ. -/
structure SameButUnwritten (s t : State) : Prop where
  calw : s.calw = t.calw
  cal : ∀ o < 21, s.calw.getLsbD o = true → s.cal.read (0x31 + o) = t.cal.read (0x31 + o)
  vRawt : s.vRawt = t.vRawt
  rawt : s.vRawt = true → s.rawt = t.rawt
  vRawp : s.vRawp = t.vRawp
  rawp : s.vRawp = true → s.rawp = t.rawp
  vCoef : s.vCoef = t.vCoef
  coef : s.vCoef = true → s.coef = t.coef
  vTlin : s.vTlin = t.vTlin
  tlin : s.vTlin = true → s.tlin = t.tlin
  vPress : s.vPress = t.vPress
  press : s.vPress = true → s.press = t.press
  err : s.err = t.err
  inputs : s.inputs = t.inputs
  responses : s.responses = t.responses
  nanDraws : s.nanDraws = t.nanDraws

/-- The five valid flags (R17), for claims about all of them. -/
def State.flags (s : State) : List Bool := [s.vCoef, s.vRawt, s.vRawp, s.vTlin, s.vPress]

/-- R65, in its own words and in numbers: the words that are illegal, `op` being `CW[39:32]` and `data`
being `CW[31:0]`. -/
def IllegalByR65 (w : CommandWord) : Prop :=
  let op := w.toNat / 2 ^ 32
  let data := w.toNat % 2 ^ 32
  op ∉ [0x01, 0x10, 0x11, 0x12, 0x13, 0x20, 0x21, 0x22, 0x30]
  ∨ (op ∈ [0x01, 0x20, 0x21, 0x22] ∧ data ≠ 0)
  ∨ (op = 0x10 ∧ (data / 2 ^ 16 ≠ 0 ∨ data / 2 ^ 8 % 256 < 0x31 ∨ 0x45 < data / 2 ^ 8 % 256))
  ∨ (op ∈ [0x11, 0x12] ∧ data / 2 ^ 24 ≠ 0)
  ∨ (op = 0x30 ∧ (data / 2 ^ 8 ≠ 0 ∨ unassignedSel (data % 256)))
where
  /-- R150: the selectors of "every other value". -/
  unassignedSel (sel : Nat) : Prop :=
    (0x0E ≤ sel ∧ sel ≤ 0x0F) ∨ (0x14 ≤ sel ∧ sel ≤ 0x1F) ∨ (0x22 ≤ sel ∧ sel ≤ 0x30) ∨ 0x46 ≤ sel

/-- R164: the table of what raises `NOT_READY`. -/
def notReadyWhen (s : State) : Instr → Bool
  | .compt => !s.vCoef || !s.vRawt
  | .compp => !s.vCoef || !s.vRawp || !s.vTlin
  | .rd sel =>
    if sel.toNat ≤ 0x0D then !s.vCoef
    else if sel = 0x10#8 then !s.vTlin
    else if sel = 0x11#8 then !s.vPress
    else if sel = 0x12#8 then !s.vRawt
    else if sel = 0x13#8 then !s.vRawp
    else if sel = 0x20#8 then false
    else if sel = 0x21#8 then false
    else !s.calw.getLsbD (sel.toNat - 0x31)
  | .rst => false
  | .ldcal _ _ => false
  | .ldrawt _ _ _ => false
  | .ldrawp _ _ _ => false
  | .ldt _ => false
  | .decode => false

end Sys2Proof.Machine
end

