-- ==== Sys2Proof/Certificates/Slice0/Obligations.lean ====
section
/-! DEFINITION. The statements for the provers. Each docstring names the rule of the spec it formalises. -/

open Sys2Proof Sys2Proof.Machine

/-! ### Encoding -/

/-- `30_encoding.md` R62 to R64, R70: a command's word decodes to that command, with every operand at every
value its field admits. -/
def Obligations.DecodeOfEncodeIsTheCommand : Prop :=
  ∀ i : Instr, i.wf = true → decode (encode i) = .ok i

/-- R64, R70: a word has one meaning: whatever it decodes to is a legal command whose word it is. -/
def Obligations.EncodeOfDecodeIsTheWord : Prop :=
  ∀ (w : CommandWord) (i : Instr), decode w = .ok i → encode i = w ∧ i.wf = true

/-- R65, R70: the words that decode to a command are those that R65 does not list as illegal. -/
def Obligations.LegalWordsAreThoseNotListedIllegal : Prop :=
  ∀ w : CommandWord, (∃ i, decode w = .ok i) ↔ ¬ IllegalByR65 w

/-- The examples of R80 to R83, R111, R127, R128, R150 and R151: words written out from the spec's
encodings. -/
def Obligations.SampleWordsDecode : Prop :=
  decode 0x0100000000#40 = .ok .rst ∧
  decode 0x1000003170#40 = .ok (.ldcal 0x31#8 0x70#8) ∧
  decode 0x1100815A3C#40 = .ok (.ldrawt 0x3C#8 0x5A#8 0x81#8) ∧
  decode 0x1200632F10#40 = .ok (.ldrawp 0x10#8 0x2F#8 0x63#8) ∧
  decode 0x1341C80000#40 = .ok (.ldt 0x41C80000#32) ∧
  decode 0x2000000000#40 = .ok .decode ∧
  decode 0x2100000000#40 = .ok .compt ∧
  decode 0x2200000000#40 = .ok .compp ∧
  decode 0x3000000011#40 = .ok (.rd 0x11#8)

/-- R63: each operand is the unsigned slice of the word that R63 names, and a raw count is `CW[23:0]`. -/
def Obligations.OperandsAreUnsignedSlices : Prop :=
  ∀ w : CommandWord,
    (∀ addr byte, decode w = .ok (.ldcal addr byte) →
      addr.toNat = w.toNat / 2 ^ 8 % 256 ∧ byte.toNat = w.toNat % 256) ∧
    (∀ x l m, decode w = .ok (.ldrawt x l m) ∨ decode w = .ok (.ldrawp x l m) →
      x.toNat = w.toNat % 256 ∧ l.toNat = w.toNat / 2 ^ 8 % 256 ∧ m.toNat = w.toNat / 2 ^ 16 % 256 ∧
      (raw24 x l m).toNat = w.toNat % 2 ^ 24) ∧
    (∀ u, decode w = .ok (.ldt u) → u.toNat = w.toNat % 2 ^ 32) ∧
    (∀ sel, decode w = .ok (.rd sel) → sel.toNat = w.toNat % 256)

/-- R69: `LDRAWT.W`, `LDRAWP.W` load the 24-bit number they are given; `LDCALBLK` is 21 `LDCAL` commands
whose address advances by exactly one per byte; `LDT.F` of the literal `± digits * 10^e` or `± digits / 10^e`
loads that number rounded to binary32 once; `MEASURE` is the 28 commands of its row in their order. That a
literal is given by its sign, its digits and its power of ten is the model's (log entry 17). -/
def Obligations.PseudoInstructionsExpand : Prop :=
  (∀ n : BitVec 24, ∃ x l m, pseudoLdrawtW n = [.ldrawt x l m] ∧ (raw24 x l m).toNat = n.toNat) ∧
  (∀ n : BitVec 24, ∃ x l m, pseudoLdrawpW n = [.ldrawp x l m] ∧ (raw24 x l m).toNat = n.toNat) ∧
  (∀ b : Vector Byte 21, (pseudoLdcalblk b).length = 21 ∧
    ∀ (o : Nat) (h : o < 21), (pseudoLdcalblk b)[o]? = some (.ldcal (BitVec.ofNat 8 (0x31 + o)) b[o])) ∧
  (∀ (neg : Bool) (digits e : Nat),
    (∃ u, pseudoLdtF neg digits e = [.ldt u] ∧ fval u = roundToF32 neg (digits * 10 ^ e * 2 ^ 149) 1) ∧
    ∃ u, pseudoLdtF neg digits (-e) = [.ldt u] ∧ fval u = roundToF32 neg (digits * 2 ^ 149) (10 ^ e)) ∧
  (∀ (pX pL pM tX tL tM : Byte) (b : Vector Byte 21), ∃ block : List Instr,
    pseudoMeasure pX pL pM tX tL tM b =
      .ldrawp pX pL pM :: .ldrawt tX tL tM ::
        block.append [.decode, .compt, .compp, .rd 0x10#8, .rd 0x11#8] ∧
    block.length = 21 ∧
    ∀ (o : Nat) (h : o < 21), block[o]? = some (.ldcal (BitVec.ofNat 8 (0x31 + o)) b[o]))

/-! ### The step -/

/-- R52, R165: when the next word the host presents decodes to a command, a step takes that word and is that
command's execution. -/
def Obligations.StepExecutesTheDecodedCommand : Prop :=
  ∀ (s : State) (w : CommandWord) (rest : List HostInput) (i : Instr),
    s.inputs = .command w :: rest → decode w = .ok i → step s = exec i { s with inputs := rest }

/-- R200: with nothing presented the block waits, and nothing changes. -/
def Obligations.StepWaitsForACommand : Prop :=
  ∀ s : State, s.inputs = [] → step s = .next s

/-- R190, R191: on the `rst` input, in every state, the block goes to the reset state without a response,
and the `RST` command gives that same state with its response. What the data registers and the memory hold
in that state is the model's choice (log entries 1 and 2). -/
def Obligations.ResetPinAndRstAgree : Prop :=
  ∀ (s : State) (rest : List HostInput),
    (s.inputs = .resetPin :: rest →
      step s = .next { State.reset with
        inputs := rest, responses := s.responses, nanDraws := s.nanDraws }) ∧
    (s.inputs = .command 0x0100000000#40 :: rest →
      step s = .next { State.reset with
        inputs := rest, responses := { ok := true, data := 0#32 } :: s.responses, nanDraws := s.nanDraws })

/-- R65, R162: an illegal word in the unfaulted state raises `ILLEGAL_COMMAND` and changes no other state;
the all-zero and the all-ones word are illegal, and `LDT` has no illegal operand. -/
def Obligations.IllegalWordsRaiseIllegalCommand : Prop :=
  (∀ (s : State) (w : CommandWord) (rest : List HostInput),
    s.inputs = .command w :: rest → s.err = 0#4 → IllegalByR65 w →
    step s = .next { s with
      inputs := rest, err := 1#4, responses := { ok := false, data := 1#32 } :: s.responses }) ∧
  IllegalByR65 0x0000000000#40 ∧ IllegalByR65 0xFFFFFFFFFF#40 ∧
  ∀ u : Word, ¬ IllegalByR65 (0x13#8 ++ u)

/-- R198, R165: every step has a next state: every command and every word is answered, in every state. -/
def Obligations.EveryStepHasANextState : Prop :=
  (∀ s : State, ∃ t, step s = .next t) ∧ (∀ (i : Instr) (s : State), ∃ t, exec i s = .next t)

/-- R71: a command word gives exactly one response; `ok` is 0 exactly when the block is faulted afterwards;
a response with `ok = 0` carries `ERR`, and one with `ok = 1` carries 0 unless the command is `RD`. -/
def Obligations.OneResponsePerCommandWord : Prop :=
  ∀ (s : State) (w : CommandWord) (rest : List HostInput), s.inputs = .command w :: rest →
    ∃ t r, step s = .next t ∧ t.inputs = rest ∧ t.responses = r :: s.responses ∧
      (r.ok = true ↔ t.err = 0#4) ∧
      (r.ok = false → r.data.toNat = t.err.toNat) ∧
      (r.ok = true → (∀ sel, decode w ≠ .ok (.rd sel)) → r.data = 0#32)

/-! ### Faults -/

/-- R160, R161, R166: a fault writes its code (1, 2 or 3) to `ERR`, is answered with it, raises the `fault`
output, and changes nothing else. -/
def Obligations.FaultsArePrecise : Prop :=
  ∀ (s t : State) (w : CommandWord) (rest : List HostInput),
    s.inputs = .command w :: rest → s.err = 0#4 → step s = .next t → t.err ≠ 0#4 →
    t = { s with
      inputs := rest, err := t.err
      responses := { ok := false, data := t.err.zeroExtend 32 } :: s.responses } ∧
    t.err.toNat ≤ 3 ∧ t.faultOut = 1#1

/-- R167: in the faulted state every word but the legal `RST` word has no effect on any state and is
answered with the first fault's code. -/
def Obligations.FaultedStateAbsorbs : Prop :=
  ∀ (s : State) (w : CommandWord) (rest : List HostInput),
    s.inputs = .command w :: rest → s.err ≠ 0#4 → w ≠ 0x0100000000#40 →
    step s = .next { s with
      inputs := rest, responses := { ok := false, data := s.err.zeroExtend 32 } :: s.responses }

/-- R168: the only ways out of the faulted state are `RST` and the `rst` pin, and both give the full reset
state: `ERR`, `CALW` and all five flags are 0, so nothing is restored. Until then `ERR` keeps the first code:
faults do not nest. -/
def Obligations.OnlyResetLeavesTheFaultedState : Prop :=
  ∀ s t : State, s.err ≠ 0#4 → step s = .next t →
    let reset := ∃ rest, s.inputs = .resetPin :: rest ∨ s.inputs = .command 0x0100000000#40 :: rest
    (t.err ≠ s.err → reset) ∧
    (reset → t.err = 0#4 ∧ t.calw = 0#21 ∧ t.flags = [false, false, false, false, false])

/-- R163: `CAL_INCOMPLETE` is raised by `DECODE`, and only by `DECODE`, exactly when a bit of `CALW` is 0. -/
def Obligations.CalIncompleteExactlyFromDecode : Prop :=
  (∀ s : State, s.err = 0#4 → s.calw ≠ 0x1FFFFF#21 →
    exec .decode s = .next { s with
      err := 2#4, responses := { ok := false, data := 2#32 } :: s.responses }) ∧
  (∀ (i : Instr) (s t : State), s.err = 0#4 → exec i s = .next t → t.err = 2#4 →
    i = .decode ∧ s.calw ≠ 0x1FFFFF#21)

/-- R164: `NOT_READY` is raised exactly where the table of R164 says so. -/
def Obligations.NotReadyExactlyByTheTable : Prop :=
  ∀ (i : Instr) (s : State), i.wf = true → s.err = 0#4 →
    (notReadyWhen s i = true → exec i s = .next { s with
      err := 3#4, responses := { ok := false, data := 3#32 } :: s.responses }) ∧
    (∀ t, exec i s = .next t → t.err = 3#4 → notReadyWhen s i = true)

/-- The model's choice (log entry 15, DEDUCED): the rules R80, R150 and R162 speak of words, and no word
decodes to an `LDCAL` with an address outside 0x31..0x45 or to an `RD` with an unassigned selector. The terms
of `Instr` that carry such an operand raise `ILLEGAL_COMMAND`, as the words with that operand do. -/
def Obligations.IllFormedOperandsRaiseIllegalCommand : Prop :=
  ∀ (i : Instr) (s : State), i.wf = false → s.err = 0#4 →
    exec i s = .next { s with
      err := 1#4, responses := { ok := false, data := 1#32 } :: s.responses }

/-- R193: `COMPP` faults unless a `COMPT` or an `LDT` came before it since the last reset: both resets leave
`TLIN` without a value, no command but `COMPT` and `LDT` and no other step gives it one, and without one
`COMPP` raises `NOT_READY`. -/
def Obligations.PressureNeedsATemperature : Prop :=
  (∀ s : State, s.err = 0#4 → s.vTlin = false →
    exec .compp s = .next { s with
      err := 3#4, responses := { ok := false, data := 3#32 } :: s.responses }) ∧
  (∀ (i : Instr) (s t : State), exec i s = .next t → s.vTlin = false → t.vTlin = true →
    i = .compt ∨ ∃ u, i = .ldt u) ∧
  (∀ s t : State, step s = .next t → s.vTlin = false → t.vTlin = true →
    ∃ w rest, s.inputs = .command w :: rest ∧ (decode w = .ok .compt ∨ ∃ u, decode w = .ok (.ldt u))) ∧
  State.reset.vTlin = false ∧
  (∀ (s : State) (rest : List HostInput),
    s.inputs = .resetPin :: rest ∨ s.inputs = .command 0x0100000000#40 :: rest →
    ∃ t, step s = .next t ∧ t.vTlin = false)

/-! ### The load commands -/

/-- R80, R44: `LDCAL` stores its byte at its address, sets that address's bit of `CALW`, and changes nothing
else. The canonical form of the memory is an invariant (StepKeepsTheInvariant). -/
def Obligations.LdcalStoresOneByte : Prop :=
  ∀ (s : State) (addr byte : Byte), s.cal.wf → s.err = 0#4 → 0x31 ≤ addr.toNat → addr.toNat ≤ 0x45 →
    ∃ m k, exec (.ldcal addr byte) s = .next { s with
        cal := m, calw := k, responses := { ok := true, data := 0#32 } :: s.responses } ∧
      m.wf ∧
      (∀ a, m.read a = if a = addr.toNat then byte else s.cal.read a) ∧
      (∀ o < 21, k.getLsbD o = (s.calw.getLsbD o || decide (o = addr.toNat - 0x31)))

/-- R81, R84: `LDRAWT` writes `MSB * 65536 + LSB * 256 + XLSB` to `RAWT`, sets `V.RAWT`, and changes nothing
else. -/
def Obligations.LdrawtLoadsTheCount : Prop :=
  ∀ (s : State) (xlsb lsb msb : Byte), s.err = 0#4 →
    ∃ v : Word, exec (.ldrawt xlsb lsb msb) s = .next { s with
        rawt := v, vRawt := true, responses := { ok := true, data := 0#32 } :: s.responses } ∧
      v.toNat = msb.toNat * 65536 + lsb.toNat * 256 + xlsb.toNat

/-- R82, R84: the same for `LDRAWP`, `RAWP` and `V.RAWP`. -/
def Obligations.LdrawpLoadsTheCount : Prop :=
  ∀ (s : State) (xlsb lsb msb : Byte), s.err = 0#4 →
    ∃ v : Word, exec (.ldrawp xlsb lsb msb) s = .next { s with
        rawp := v, vRawp := true, responses := { ok := true, data := 0#32 } :: s.responses } ∧
      v.toNat = msb.toNat * 65536 + lsb.toNat * 256 + xlsb.toNat

/-- R83: every operand is legal; `LDT` stores the pattern bit for bit, sets `V.TLIN`, and changes nothing
else; a following `RD TLIN` returns the same 32 bits. -/
def Obligations.LdtStoresThePattern : Prop :=
  ∀ (s : State) (u : Word), s.err = 0#4 →
    decode (0x13#8 ++ u) = .ok (.ldt u) ∧
    exec (.ldt u) s = .next { s with
      tlin := u, vTlin := true, responses := { ok := true, data := 0#32 } :: s.responses } ∧
    ∀ t, exec (.ldt u) s = .next t →
      exec (.rd 0x10#8) t = .next { t with responses := { ok := true, data := u } :: t.responses }

/-! ### The decoder -/

/-- R90 to R93: the extraction primitives are the unsigned and the two's-complement readings of the bits. -/
def Obligations.ExtractionReadsTheBits : Prop :=
  ∀ lo hi : Byte, u8 lo = lo.toNat ∧ s8 lo = lo.toInt ∧
    u16le lo hi = (hi ++ lo).toNat ∧ s16le lo hi = (hi ++ lo).toInt

/-- R111 with R95 to R110, R112, R115: with all 21 bytes written, `DECODE` writes the 14 coefficients, each
exactly the integer of its bytes, less the bias for P1 and P2, times 2^(-k); it sets `V.COEF` and changes
nothing else. The layout of R95 is the spec's own decision D4. -/
def Obligations.DecodeWritesTheExactCoefficients : Prop :=
  ∀ s : State, s.err = 0#4 → s.calw = 0x1FFFFF#21 →
    let b := fun o : Nat => s.cal.read (0x31 + o)
    let u16 := fun o : Nat => ((b (o + 1) ++ b o).toNat : Int)
    let s16 := fun o : Nat => (b (o + 1) ++ b o).toInt
    let i8 := fun o : Nat => (b o).toInt
    ∃ c : Coefs,
      exec .decode s = .next { s with
        coef := c, vCoef := true, responses := { ok := true, data := 0#32 } :: s.responses } ∧
      fval c.t1 = exactScaled (u16 0) (-8) ∧
      fval c.t2 = exactScaled (u16 2) 30 ∧
      fval c.t3 = exactScaled (i8 4) 48 ∧
      fval c.p1 = exactScaled (u16 5 - 16384) 20 ∧
      fval c.p2 = exactScaled (s16 7 - 16384) 29 ∧
      fval c.p3 = exactScaled (i8 9) 32 ∧
      fval c.p4 = exactScaled (i8 10) 37 ∧
      fval c.p5 = exactScaled (u16 11) (-3) ∧
      fval c.p6 = exactScaled (u16 13) 6 ∧
      fval c.p7 = exactScaled (i8 15) 8 ∧
      fval c.p8 = exactScaled (i8 16) 15 ∧
      fval c.p9 = exactScaled (s16 17) 48 ∧
      fval c.p10 = exactScaled (i8 19) 48 ∧
      fval c.p11 = exactScaled (i8 20) 65

/-- R112: every coefficient `DECODE` writes is `+0.0` or a normal number: its pattern is 0x00000000 or has an
exponent field from 1 to 254. -/
def Obligations.DecodedCoefficientsAreZeroOrNormal : Prop :=
  ∀ s t : State, s.err = 0#4 → s.calw = 0x1FFFFF#21 → exec .decode s = .next t →
    ∀ u ∈ [t.coef.t1, t.coef.t2, t.coef.t3, t.coef.p1, t.coef.p2, t.coef.p3, t.coef.p4, t.coef.p5,
        t.coef.p6, t.coef.p7, t.coef.p8, t.coef.p9, t.coef.p10, t.coef.p11],
      u = 0#32 ∨ (1 ≤ u.toNat / 2 ^ 23 % 256 ∧ u.toNat / 2 ^ 23 % 256 ≤ 254)

/-- R113: `DECODE` succeeds on any 21 bytes, and each coefficient is a function of its own one or two bytes
alone. -/
def Obligations.CoefficientsDependOnTheirOwnBytes : Prop :=
  ∀ s t : State, s.err = 0#4 → s.calw = 0x1FFFFF#21 → t.err = 0#4 → t.calw = 0x1FFFFF#21 →
    let eq1 := fun a : Nat => s.cal.read a = t.cal.read a
    let eq2 := fun a : Nat => s.cal.read a = t.cal.read a ∧ s.cal.read (a + 1) = t.cal.read (a + 1)
    ∃ s' t' : State, exec .decode s = .next s' ∧ exec .decode t = .next t' ∧
      s'.vCoef = true ∧ t'.vCoef = true ∧
      (eq2 0x31 → s'.coef.t1 = t'.coef.t1) ∧ (eq2 0x33 → s'.coef.t2 = t'.coef.t2) ∧
      (eq1 0x35 → s'.coef.t3 = t'.coef.t3) ∧ (eq2 0x36 → s'.coef.p1 = t'.coef.p1) ∧
      (eq2 0x38 → s'.coef.p2 = t'.coef.p2) ∧ (eq1 0x3A → s'.coef.p3 = t'.coef.p3) ∧
      (eq1 0x3B → s'.coef.p4 = t'.coef.p4) ∧ (eq2 0x3C → s'.coef.p5 = t'.coef.p5) ∧
      (eq2 0x3E → s'.coef.p6 = t'.coef.p6) ∧ (eq1 0x40 → s'.coef.p7 = t'.coef.p7) ∧
      (eq1 0x41 → s'.coef.p8 = t'.coef.p8) ∧ (eq2 0x42 → s'.coef.p9 = t'.coef.p9) ∧
      (eq1 0x44 → s'.coef.p10 = t'.coef.p10) ∧ (eq1 0x45 → s'.coef.p11 = t'.coef.p11)

/-! ### The evaluator -/

/-- R127: with the coefficients and the raw temperature present, `COMPT` writes `d2 ⊕ u` to `TLIN`, sets
`V.TLIN`, and changes nothing else; a NaN pattern is drawn only where the value is a NaN (R125). -/
def Obligations.ComptComputesTheTemperature : Prop :=
  ∀ s : State, s.err = 0#4 → s.vCoef = true → s.vRawt = true →
    let r := cvt ((s.rawt.toNat % 2 ^ 24 : Nat) : Int)
    let d1 := fsub r (fval s.coef.t1)
    let d2 := fmul d1 (fval s.coef.t2)
    let sq := fmul d1 d1
    let u := fmul sq (fval s.coef.t3)
    ∃ (bits : Word) (n : Nat),
      exec .compt s = .next { s with
        tlin := bits, vTlin := true, nanDraws := n
        responses := { ok := true, data := 0#32 } :: s.responses } ∧
      fval bits = fadd d2 u ∧ (fadd d2 u ≠ .nan → n = s.nanDraws)

/-- R128, R124, R129: with the coefficients, the raw pressure and `TLIN` present, `COMPP` writes
`(out1 ⊕ out2) ⊕ d4` to `PRESS`, sets `V.PRESS`, and changes nothing else. -/
def Obligations.ComppComputesThePressure : Prop :=
  ∀ s : State, s.err = 0#4 → s.vCoef = true → s.vRawp = true → s.vTlin = true →
    let T := fval s.tlin
    let r := cvt ((s.rawp.toNat % 2 ^ 24 : Nat) : Int)
    let T2 := fmul T T
    let T3 := fmul T2 T
    let a1 := fmul (fval s.coef.p6) T
    let a2 := fmul (fval s.coef.p7) T2
    let a3 := fmul (fval s.coef.p8) T3
    let out1 := fadd (fadd (fadd (fval s.coef.p5) a1) a2) a3
    let b1 := fmul (fval s.coef.p2) T
    let b2 := fmul (fval s.coef.p3) T2
    let b3 := fmul (fval s.coef.p4) T3
    let q := fadd (fadd (fadd (fval s.coef.p1) b1) b2) b3
    let out2 := fmul r q
    let d1 := fmul r r
    let m := fmul (fval s.coef.p10) T
    let d2 := fadd (fval s.coef.p9) m
    let d3 := fmul d1 d2
    let r3 := fmul d1 r
    let e := fmul r3 (fval s.coef.p11)
    let d4 := fadd d3 e
    let y := fadd (fadd out1 out2) d4
    ∃ (bits : Word) (n : Nat),
      exec .compp s = .next { s with
        press := bits, vPress := true, nanDraws := n
        responses := { ok := true, data := 0#32 } :: s.responses } ∧
      fval bits = y ∧ (y ≠ .nan → n = s.nanDraws)

/-- R131: what `COMPT` writes depends only on `RAWT`, `T1`, `T2`, `T3`, but for the pattern of a NaN. -/
def Obligations.TemperatureDependsOnItsInputsOnly : Prop :=
  ∀ s t s' t' : State,
    s.err = 0#4 → s.vCoef = true → s.vRawt = true → t.err = 0#4 → t.vCoef = true → t.vRawt = true →
    s.rawt = t.rawt → s.coef.t1 = t.coef.t1 → s.coef.t2 = t.coef.t2 → s.coef.t3 = t.coef.t3 →
    exec .compt s = .next s' → exec .compt t = .next t' →
    fval s'.tlin = fval t'.tlin ∧ (fval s'.tlin ≠ .nan → s'.tlin = t'.tlin)

/-- R131: what `COMPP` writes depends only on `RAWP`, `TLIN`, `P1` to `P11`, but for the pattern of a NaN. -/
def Obligations.PressureDependsOnItsInputsOnly : Prop :=
  ∀ s t s' t' : State,
    s.err = 0#4 → s.vCoef = true → s.vRawp = true → s.vTlin = true →
    t.err = 0#4 → t.vCoef = true → t.vRawp = true → t.vTlin = true →
    s.rawp = t.rawp → s.tlin = t.tlin →
    { s.coef with t1 := 0#32, t2 := 0#32, t3 := 0#32 } = { t.coef with t1 := 0#32, t2 := 0#32, t3 := 0#32 } →
    exec .compp s = .next s' → exec .compp t = .next t' →
    fval s'.press = fval t'.press ∧ (fval s'.press ≠ .nan → s'.press = t'.press)

/-- R130: from a state that meets the invariant, the temperature `COMPT` computes is finite and of magnitude
below 1152. -/
def Obligations.ComputedTemperatureIsBounded : Prop :=
  ∀ s : State, s.Inv → s.err = 0#4 → s.vCoef = true → s.vRawt = true →
    ∃ t, exec .compt s = .next t ∧ BoundedBy (fval t.tlin) 1152

/-- R130: with such a temperature, the pressure `COMPP` computes is finite and of magnitude below 2^29. -/
def Obligations.PressureOfABoundedTemperatureIsFinite : Prop :=
  ∀ s : State, s.Inv → s.err = 0#4 → s.vCoef = true → s.vRawp = true → s.vTlin = true →
    BoundedBy (fval s.tlin) 1152 →
    ∃ t, exec .compp s = .next t ∧ BoundedBy (fval t.press) (2 ^ 29)

/-! ### Floating point -/

/-- R120: a pattern that is not a NaN's is the pattern of its value. -/
def Obligations.PatternsRoundTrip : Prop :=
  ∀ u d : Word, fval u ≠ .nan → fbits d (fval u) = u

/-- R120, R121: every result of `⊕`, `⊖`, `⊗` on patterns' values, and every `cvt` and `scale`, is a value
that a pattern holds: storing it and reading it back gives it again. -/
def Obligations.ComputedValuesSurviveStoring : Prop :=
  ∀ (u v d : Word) (n k : Int),
    ∀ x ∈ [fadd (fval u) (fval v), fsub (fval u) (fval v), fmul (fval u) (fval v), cvt n,
        scale (fval u) k],
      x ≠ .nan → fval (fbits d x) = x

/-- R121: rounding is to the nearest magnitude of at most 24 significant bits in units of 2^-149, and to the
even one of two that are equally near: no such magnitude `c * 2^e` is nearer to `n / d` than the one given,
and where another is as near, the one given is an even multiple of their difference. -/
def Obligations.RoundingIsToNearestEven : Prop :=
  ∀ n d : Nat, 0 < d →
    (∃ c e : Nat, c < 2 ^ 24 ∧ roundMag n d = c * 2 ^ e) ∧
    ∀ c e : Nat, c < 2 ^ 24 →
      let m : Int := (roundMag n d : Nat)
      let y : Int := (c * 2 ^ e : Nat)
      |m * d - n| ≤ |y * d - n| ∧ (|m * d - n| = |y * d - n| → y ≠ m → 2 * (m - y) ∣ m)

/-- R121, first point: rounding overflows to the infinity of its sign exactly from half a spacing above the
largest finite value `(2^24 - 1) * 2^104` on. -/
def Obligations.OverflowThresholdIsExact : Prop :=
  ∀ (neg : Bool) (n d : Nat), 0 < d →
    (roundToF32 neg n d = .inf neg ↔ (2 ^ 25 - 1) * 2 ^ 103 * 2 ^ 149 * d ≤ n)

/-- R121, third and fourth points: signs of zero results, of every finite or infinite product (so of one that
underflows to zero, which it does exactly up to half a unit of 2^-149), and infinities. -/
def Obligations.ZerosAndInfinitiesAsStated : Prop :=
  (∀ a b n, fmul (.fin a 0) (.fin b n) = .fin (a ^^ b) 0) ∧
  (∀ a b m n s k, fmul (.fin a m) (.fin b n) = .fin s k ∨ fmul (.fin a m) (.fin b n) = .inf s →
    s = (a ^^ b)) ∧
  (∀ a b m n, fmul (.fin a m) (.fin b n) = .fin (a ^^ b) 0 ↔ 2 * (m * n) ≤ 2 ^ 149) ∧
  (∀ a m, fadd (.fin a m) (.fin (!a) m) = .fin false 0) ∧
  (∀ a, fadd (.fin a 0) (.fin a 0) = .fin a 0) ∧
  (∀ (u : Word) (a b : Bool) (m : Nat), fval u = .fin a m → m ≠ 0 → fadd (fval u) (.fin b 0) = fval u) ∧
  (∀ a b m, fadd (.inf a) (.fin b m) = .inf a ∧ fadd (.fin b m) (.inf a) = .inf a) ∧
  (∀ a, fadd (.inf a) (.inf a) = .inf a) ∧
  (∀ a b m, m ≠ 0 → fmul (.inf a) (.fin b m) = .inf (a ^^ b)) ∧
  (∀ a b m, m ≠ 0 → fmul (.fin b m) (.inf a) = .inf (a ^^ b)) ∧
  (∀ a b, fmul (.inf a) (.inf b) = .inf (a ^^ b))

/-- R121, first sentence, with R94 and R123: `⊕`, `⊖`, `⊗`, `scale` and `cvt` on finite operands are the
exact result rounded once. `count` is a value as a signed count of 2^-149, so the exact sum is the sum of two
counts and the exact product is `m * n` counts of 2^-298. Rounding keeps the sign, and gives `roundMag` of
the exact magnitude or the infinity; RoundingIsToNearestEven and OverflowThresholdIsExact say which. A sum
that is exactly 0 is in ZerosAndInfinitiesAsStated. -/
def Obligations.FiniteResultsAreExactAndRoundedOnce : Prop :=
  ∀ (a b : Bool) (m n k : Nat) (i : Int),
    let count := fun (neg : Bool) (mag : Nat) => if neg then -(mag : Int) else (mag : Int)
    let sum := count a m + count b n
    let diff := count a m - count b n
    (sum ≠ 0 → fadd (.fin a m) (.fin b n) = roundToF32 (decide (sum < 0)) sum.natAbs 1) ∧
    (diff ≠ 0 → fsub (.fin a m) (.fin b n) = roundToF32 (decide (diff < 0)) diff.natAbs 1) ∧
    (∀ x, fsub x (.fin b n) = fadd x (.fin (!b) n) ∧ fsub x (.inf b) = fadd x (.inf (!b)) ∧
      fsub x .nan = .nan) ∧
    fmul (.fin a m) (.fin b n) = roundToF32 (a ^^ b) (m * n) (2 ^ 149) ∧
    scale (.fin a m) k = roundToF32 a m (2 ^ k) ∧ scale (.fin a m) (-k) = roundToF32 a (m * 2 ^ k) 1 ∧
    cvt i = roundToF32 (decide (i < 0)) (i.natAbs * 2 ^ 149) 1 ∧
    ∀ (neg : Bool) (p d : Nat),
      roundToF32 neg p d = .inf neg ∨ roundToF32 neg p d = .fin neg (roundMag p d)

/-- R125: the operations that give a NaN, and that every pattern drawn for one has exponent field 255 and a
fraction that is not 0. -/
def Obligations.NanResultsAsStated : Prop :=
  (∀ x, fadd .nan x = .nan ∧ fadd x .nan = .nan ∧ fmul .nan x = .nan ∧ fmul x .nan = .nan) ∧
  (∀ a, fadd (.inf a) (.inf (!a)) = .nan) ∧
  (∀ a b, fmul (.inf a) (.fin b 0) = .nan ∧ fmul (.fin b 0) (.inf a) = .nan) ∧
  (∀ k, (drawnNaN k).toNat / 2 ^ 23 % 256 = 255 ∧ (drawnNaN k).toNat % 2 ^ 23 ≠ 0)

/-- R122: `⊕` and `⊗` are commutative in value. -/
def Obligations.SumsAndProductsCommute : Prop :=
  ∀ x y : F32, fadd x y = fadd y x ∧ fmul x y = fmul y x

/-- R123: `cvt` is exact on every integer the block converts, and `cvt 0` is `+0.0`. -/
def Obligations.CvtIsExactBelowTwoToThe24 : Prop :=
  ∀ n : Int, n.natAbs < 2 ^ 24 → cvt n = .fin (decide (n < 0)) (n.natAbs * 2 ^ 149)

/-! ### Read-out and reset -/

/-- R150: each legal selector whose condition holds answers the item of its row and changes nothing. -/
def Obligations.RdReturnsTheSelectedItem : Prop :=
  ∀ (s : State) (sel : Byte), s.err = 0#4 →
    let answers := fun d : Word =>
      exec (.rd sel) s = .next { s with responses := { ok := true, data := d } :: s.responses }
    (∀ d, [s.coef.t1, s.coef.t2, s.coef.t3, s.coef.p1, s.coef.p2, s.coef.p3, s.coef.p4, s.coef.p5,
        s.coef.p6, s.coef.p7, s.coef.p8, s.coef.p9, s.coef.p10, s.coef.p11][sel.toNat]? = some d →
      s.vCoef = true → answers d) ∧
    (sel = 0x10#8 → s.vTlin = true → answers s.tlin) ∧
    (sel = 0x11#8 → s.vPress = true → answers s.press) ∧
    (sel = 0x12#8 → s.vRawt = true → answers s.rawt) ∧
    (sel = 0x13#8 → s.vRawp = true → answers s.rawp) ∧
    (sel = 0x20#8 → answers s.status) ∧
    (sel = 0x21#8 → answers (s.calw.zeroExtend 32)) ∧
    (0x31 ≤ sel.toNat → sel.toNat ≤ 0x45 → s.calw.getLsbD (sel.toNat - 0x31) = true →
      answers ((s.cal.read sel.toNat).zeroExtend 32))

/-- R150, R47: `RD` never changes state unless it faults, and then only `ERR`. -/
def Obligations.RdChangesNoState : Prop :=
  ∀ (s t : State) (sel : Byte), exec (.rd sel) s = .next t →
    t = { s with err := t.err, responses := t.responses } ∧
    (s.err ≠ 0#4 ∨ t.err = 0#4 → t.err = s.err)

/-- R18: the bits of `STATUS`, the `CALW` view, and their reset values; both are read without a condition. -/
def Obligations.StatusAndCalwViews : Prop :=
  (∀ s : State,
    s.status.toNat = (decide (s.calw = 0x1FFFFF#21)).toNat + 2 * s.vCoef.toNat + 4 * s.vRawt.toNat
      + 8 * s.vRawp.toNat + 16 * s.vTlin.toNat + 32 * s.vPress.toNat ∧
    (s.err = 0#4 →
      exec (.rd 0x20#8) s = .next { s with
        responses := { ok := true, data := s.status } :: s.responses } ∧
      ∃ d : Word, d.toNat = s.calw.toNat ∧ exec (.rd 0x21#8) s = .next { s with
        responses := { ok := true, data := d } :: s.responses })) ∧
  State.reset.status = 0#32 ∧ State.reset.calw = 0#21

/-- R151: `RST`, in every state, clears `CALW`, the five flags and `ERR`, and answers `(1, 0)`; afterwards no
data register, coefficient or calibration byte holds a value: reading any of them is `NOT_READY`. -/
def Obligations.RstClearsEverything : Prop :=
  ∀ s : State, ∃ t, exec .rst s = .next t ∧
    t.calw = 0#21 ∧ t.flags = [false, false, false, false, false] ∧ t.err = 0#4 ∧
    t.inputs = s.inputs ∧ t.responses = { ok := true, data := 0#32 } :: s.responses ∧
    ∀ sel : Byte, legalSel sel = true → sel ≠ 0x20#8 → sel ≠ 0x21#8 →
      ∃ u, exec (.rd sel) t = .next u ∧ u.err = 3#4

/-- R23: the values the spec gives for reset; and no item that holds no value can be read then. -/
def Obligations.ResetStateIsAsStated : Prop :=
  State.reset.calw = 0#21 ∧ State.reset.flags = [false, false, false, false, false] ∧
  State.reset.err = 0#4 ∧ State.reset.status = 0#32 ∧
  ∀ sel : Byte, legalSel sel = true → sel ≠ 0x20#8 → sel ≠ 0x21#8 →
    exec (.rd sel) State.reset = .next { State.reset with
      err := 3#4, responses := [{ ok := false, data := 3#32 }] }

/-- R192: in every state in which nothing has been written, the only commands that succeed are `RST`,
`LDCAL`, `LDRAWT`, `LDRAWP`, `LDT`, `RD STATUS` and `RD CALW`. -/
def Obligations.OnlyLoadsAndViewsSucceedAfterReset : Prop :=
  ∀ (s : State) (i : Instr), s.err = 0#4 → s.calw = 0#21 →
    s.flags = [false, false, false, false, false] → i.wf = true →
    ∃ t, exec i s = .next t ∧
      (t.err = 0#4 ↔ i = .rst ∨ (∃ a b, i = .ldcal a b) ∨ (∃ x l m, i = .ldrawt x l m) ∨
        (∃ x l m, i = .ldrawp x l m) ∨ (∃ u, i = .ldt u) ∨ i = .rd 0x20#8 ∨ i = .rd 0x21#8)

/-! ### The calibration memory -/

/-- R44, R47: a written byte reads back, every other byte reads as before, and a byte whose `CALW` bit is 0
holds no value. -/
def Obligations.MemReadAfterMemWrite : Prop :=
  ∀ (s : State) (a v : Byte), s.cal.wf → 0x31 ≤ a.toNat → a.toNat ≤ 0x45 →
    (s.memWrite a v).memRead a = some v ∧
    (∀ c : Byte, 0x31 ≤ c.toNat → c.toNat ≤ 0x45 → c ≠ a → (s.memWrite a v).memRead c = s.memRead c) ∧
    (s.memRead a = none ↔ s.calw.getLsbD (a.toNat - 0x31) = false)

/-- R47: writing the same byte twice is the same as writing it once. -/
def Obligations.WritingAByteTwiceIsWritingItOnce : Prop :=
  ∀ (s : State) (a v : Byte), s.cal.wf → (s.memWrite a v).memWrite a v = s.memWrite a v

/-- The model's own (log entry 2): two memories in the canonical form that read alike are the same data. -/
def Obligations.MemoriesThatReadAlikeAreEqual : Prop :=
  ∀ m n : Memory, m.wf → n.wf → (∀ a, m.read a = n.read a) → m = n

/-! ### Rules of the whole machine -/

/-- R10, columns "written by": each piece of state is changed by the commands named there and by reset
only, and `ERR` is never overwritten by a command other than `RST` (R20). -/
def Obligations.EachRegisterHasItsWriters : Prop :=
  ∀ (i : Instr) (s t : State), exec i s = .next t →
    ((t.cal ≠ s.cal ∨ t.calw ≠ s.calw) → i = .rst ∨ ∃ a b, i = .ldcal a b) ∧
    ((t.rawt ≠ s.rawt ∨ t.vRawt ≠ s.vRawt) → i = .rst ∨ ∃ x l m, i = .ldrawt x l m) ∧
    ((t.rawp ≠ s.rawp ∨ t.vRawp ≠ s.vRawp) → i = .rst ∨ ∃ x l m, i = .ldrawp x l m) ∧
    ((t.coef ≠ s.coef ∨ t.vCoef ≠ s.vCoef) → i = .rst ∨ i = .decode) ∧
    ((t.tlin ≠ s.tlin ∨ t.vTlin ≠ s.vTlin) → i = .rst ∨ i = .compt ∨ ∃ u, i = .ldt u) ∧
    ((t.press ≠ s.press ∨ t.vPress ≠ s.vPress) → i = .rst ∨ i = .compp) ∧
    (t.err ≠ s.err → i = .rst ∨ s.err = 0#4) ∧
    t.inputs = s.inputs

/-- R12, R17: no command but `RST` clears a valid flag or a bit of `CALW`. -/
def Obligations.OnlyResetClearsFlagsAndMask : Prop :=
  ∀ (i : Instr) (s t : State), i ≠ .rst → exec i s = .next t →
    (s.vCoef = true → t.vCoef = true) ∧ (s.vRawt = true → t.vRawt = true) ∧
    (s.vRawp = true → t.vRawp = true) ∧ (s.vTlin = true → t.vTlin = true) ∧
    (s.vPress = true → t.vPress = true) ∧
    (∀ o < 21, s.calw.getLsbD o = true → t.calw.getLsbD o = true)

/-- The invariant holds at reset. It rests on the zeros of log entry 1 for the contents of the registers. -/
def Obligations.ResetMeetsTheInvariant : Prop := State.reset.Inv

/-- Every step keeps the invariant: the memory's canonical form and range (R11, R12), the 24-bit containers
(R13), the legal fault codes (R20), the coefficients `DECODE` can write (R112, R114), and that a valid
result has its inputs (R17). -/
def Obligations.StepKeepsTheInvariant : Prop :=
  ∀ s t : State, s.Inv → step s = .next t → t.Inv

/-- R22: the content of a register or byte that has not been written is never observed. Two states that are
the same but for such contents give the same responses, flags, mask, `ERR` and written contents after every
step. This is what makes the values of log entries 1 and 2 harmless. -/
def Obligations.UnwrittenContentsAreNeverObserved : Prop :=
  ∀ s t s' t' : State, s.cal.wf → t.cal.wf → SameButUnwritten s t →
    step s = .next s' → step t = .next t' → SameButUnwritten s' t'
end

