-- ==== Sys2Proof/Laws/Float.lean ====
section
/-! SUPPORT. Rounding and the interchange format (`42_compensation.md` rules R120, R121): what rounding keeps,
what it bounds, and that a pattern gives back the value it was made from. -/

namespace Sys2Proof.Machine

/-! ### The configuration record, unfolded once -/

@[simp] theorem fpfmt_fval : Config.fpfmt.fval = fval := by simp only [Config.fpfmt]
@[simp] theorem fpfmt_fbits : Config.fpfmt.fbits = fbits := by simp only [Config.fpfmt]
@[simp] theorem fpfmt_add : Config.fpfmt.add = fadd := by simp only [Config.fpfmt]
@[simp] theorem fpfmt_sub : Config.fpfmt.sub = fsub := by simp only [Config.fpfmt]
@[simp] theorem fpfmt_mul : Config.fpfmt.mul = fmul := by simp only [Config.fpfmt]
@[simp] theorem fpfmt_cvt : Config.fpfmt.cvt = cvt := by simp only [Config.fpfmt]
@[simp] theorem fpfmt_scale : Config.fpfmt.scale = scale := by simp only [Config.fpfmt]

/-! ### The magnitudes of binary32 values, the exponent unbounded above -/

/-- At most 24 significant bits. -/
def Representable (m : Nat) : Prop := ∃ c e, c < 2 ^ 24 ∧ m = c * 2 ^ e

theorem Representable.of_lt {m : Nat} (h : m < 2 ^ 24) : Representable m := ⟨m, 0, h, by simp⟩

theorem Representable.mul_two_pow {m : Nat} (h : Representable m) (k : Nat) : Representable (m * 2 ^ k) := by
  obtain ⟨c, e, hc, rfl⟩ := h
  exact ⟨c, e + k, hc, by rw [pow_add]; ring⟩

theorem spacing_pos (q : Nat) : 0 < spacing q := Nat.two_pow_pos _

theorem spacing_of_lt {q : Nat} (h : q < 2 ^ 24) : spacing q = 1 := by
  have : q.log2 ≤ 23 := by
    by_cases hq : q = 0
    · simp [hq]
    · exact Nat.le_of_lt_succ ((Nat.log2_lt hq).mpr h)
  simp [spacing, Nat.sub_eq_zero_of_le this]

theorem spacing_mono {p q : Nat} (h : p ≤ q) : spacing p ∣ spacing q := by
  refine pow_dvd_pow 2 (Nat.sub_le_sub_right ?_ 23)
  by_cases hp : p = 0
  · simp [hp]
  · exact (Nat.le_log2 (by omega)).mpr ((Nat.log2_self_le hp).trans h)

/-- A representable magnitude is a multiple of the spacing around it. -/
theorem Representable.spacing_dvd {m : Nat} (h : Representable m) : spacing m ∣ m := by
  obtain ⟨c, e, hc, rfl⟩ := h
  by_cases hm : c * 2 ^ e = 0
  · simp [hm]
  · refine Dvd.dvd.mul_left (pow_dvd_pow 2 ?_) c
    have h1 : c * 2 ^ e < 2 ^ (24 + e) := by
      rw [pow_add]; exact Nat.mul_lt_mul_of_pos_right hc (Nat.two_pow_pos e)
    have := (Nat.log2_lt hm).mpr h1
    omega

theorem div_spacing_lt (q : Nat) : q / spacing q < 2 ^ 24 := by
  rw [Nat.div_lt_iff_lt_mul (spacing_pos q), spacing, ← pow_add]
  by_cases hq : q = 0
  · simp [hq]
  · exact lt_of_lt_of_le Nat.lt_log2_self (Nat.pow_le_pow_right (by omega) (by omega))

/-! ### Rounding -/

/-- Rounding keeps a representable magnitude. -/
theorem roundMag_exact {m d : Nat} (hd : 0 < d) (h : Representable m) : roundMag (m * d) d = m := by
  obtain ⟨k, hk⟩ := h.spacing_dvd
  have hs := spacing_pos m
  have hq : m * d / d = m := Nat.mul_div_cancel m hd
  have hstep : 0 < spacing m * d := Nat.mul_pos hs hd
  have hmd : m * d = spacing m * d * k := by
    conv_lhs => rw [hk]
    ring
  simp only [roundMag, hq]
  rw [hmd, Nat.mul_div_cancel_left _ hstep, Nat.mul_mod_right]
  simp only [roundsUp, Nat.mul_zero, Nat.not_lt_zero, decide_false, Bool.false_or]
  rw [decide_eq_false (by omega), Bool.false_and]
  simp only [Bool.false_eq_true, if_false]
  rw [Nat.mul_comm]
  exact hk.symm

theorem roundMag_one {m : Nat} (h : Representable m) : roundMag m 1 = m := by
  simpa using roundMag_exact Nat.one_pos h

/-- What rounding gives is representable. -/
theorem roundMag_representable (n d : Nat) : Representable (roundMag n d) := by
  have h1 : n / (spacing (n / d) * d) < 2 ^ 24 := by
    rw [Nat.mul_comm, ← Nat.div_div_eq_div_mul]
    exact div_spacing_lt _
  simp only [roundMag]
  split
  · refine Representable.mul_two_pow ?_ _
    rcases Nat.lt_or_ge (n / (spacing (n / d) * d) + 1) (2 ^ 24) with h | h
    · exact .of_lt h
    · have : n / (spacing (n / d) * d) + 1 = 2 ^ 24 := by omega
      rw [this]
      exact ⟨1, 24, by decide, by decide⟩
  · exact Representable.mul_two_pow (.of_lt h1) _

/-- Rounding does not pass a representable bound. -/
theorem roundMag_le {n d b : Nat} (hd : 0 < d) (hb : Representable b) (h : n ≤ b * d) : roundMag n d ≤ b := by
  have hqb : n / d ≤ b := Nat.div_le_of_le_mul (by rwa [Nat.mul_comm])
  obtain ⟨k, hk⟩ : spacing (n / d) ∣ b := (spacing_mono hqb).trans hb.spacing_dvd
  have hs := spacing_pos (n / d)
  have hstep : 0 < spacing (n / d) * d := Nat.mul_pos hs hd
  have hn : n ≤ spacing (n / d) * d * k := by
    calc n ≤ b * d := h
      _ = spacing (n / d) * k * d := by rw [← hk]
      _ = spacing (n / d) * d * k := by ring
  have hm : n / (spacing (n / d) * d) ≤ k := Nat.div_le_of_le_mul hn
  simp only [roundMag]
  suffices hsuff : (if roundsUp (n / (spacing (n / d) * d)) (n % (spacing (n / d) * d)) (spacing (n / d) * d)
      then n / (spacing (n / d) * d) + 1 else n / (spacing (n / d) * d)) ≤ k by
    calc _ ≤ k * spacing (n / d) := Nat.mul_le_mul_right _ hsuff
      _ = b := by rw [Nat.mul_comm]; exact hk.symm
  split
  · rename_i hup
    rcases Nat.lt_or_ge (n / (spacing (n / d) * d)) k with hlt | hge
    · exact hlt
    · exfalso
      have heq : n / (spacing (n / d) * d) = k := le_antisymm hm hge
      have hmod := Nat.div_add_mod n (spacing (n / d) * d)
      rw [heq] at hmod
      have h0 : n % (spacing (n / d) * d) = 0 := by omega
      simp only [roundsUp, h0, Nat.mul_zero, Nat.not_lt_zero, decide_false, Bool.false_or,
        Bool.and_eq_true, decide_eq_true_eq] at hup
      omega
  · exact hm

/-! ### Values that a pattern can hold -/

/-- The values of binary32 patterns. -/
def Fits : F32 → Prop
  | .nan => True
  | .inf _ => True
  | .fin _ m => Representable m ∧ m < overflowMag

/-- Everything rounding can give: the infinity of the sign, or the sign with the rounded magnitude. -/
theorem roundToF32_cases (neg : Bool) (n d : Nat) :
    roundToF32 neg n d = .inf neg ∨ roundToF32 neg n d = .fin neg (roundMag n d) := by
  simp only [roundToF32]
  split <;> simp

theorem roundToF32_ne_nan (neg : Bool) (n d : Nat) : roundToF32 neg n d ≠ .nan := by
  rcases roundToF32_cases neg n d with h | h <;> simp [h]

theorem roundToF32_fits (neg : Bool) (n d : Nat) : Fits (roundToF32 neg n d) := by
  simp only [roundToF32]
  split
  · trivial
  · exact ⟨roundMag_representable n d, Nat.lt_of_not_le ‹_›⟩

theorem roundToF32_exact {m d : Nat} (neg : Bool) (hd : 0 < d) (h : Representable m) (hm : m < overflowMag) :
    roundToF32 neg (m * d) d = .fin neg m := by
  simp [roundToF32, roundMag_exact hd h, Nat.not_le.mpr hm]

theorem roundToF32_one {m : Nat} (neg : Bool) (h : Representable m) (hm : m < overflowMag) :
    roundToF32 neg m 1 = .fin neg m := by
  simp [roundToF32, roundMag_one h, Nat.not_le.mpr hm]

/-- A finite value of magnitude at most `c` units. -/
def MagLe (x : F32) (c : Nat) : Prop := ∃ neg m, x = .fin neg m ∧ m ≤ c

theorem MagLe.mono {x : F32} {b c : Nat} (h : MagLe x b) (hbc : b ≤ c) : MagLe x c := by
  obtain ⟨s, m, rfl, hm⟩ := h
  exact ⟨s, m, rfl, hm.trans hbc⟩

/-- Rounding what does not pass a representable bound gives a finite value that does not pass it. -/
theorem roundToF32_magLe {n d c : Nat} (neg : Bool) (hd : 0 < d) (hc : Representable c)
    (hlt : c < overflowMag) (h : n ≤ c * d) : MagLe (roundToF32 neg n d) c := by
  have hle := roundMag_le hd hc h
  refine ⟨neg, roundMag n d, ?_, hle⟩
  simp [roundToF32, Nat.not_le.mpr (lt_of_le_of_lt hle hlt)]

/-- A sum does not pass a representable bound of the sum of the bounds. -/
theorem fadd_magLe {x y : F32} {a b c : Nat} (hx : MagLe x a) (hy : MagLe y b) (hc : Representable c)
    (hlt : c < overflowMag) (h : a + b ≤ c) : MagLe (fadd x y) c := by
  obtain ⟨s, m, rfl, hm⟩ := hx
  obtain ⟨r, n, rfl, hn⟩ := hy
  simp only [fadd]
  split
  · exact roundToF32_magLe _ Nat.one_pos hc hlt (by omega)
  · split
    · exact roundToF32_magLe _ Nat.one_pos hc hlt (by omega)
    · split
      · exact roundToF32_magLe _ Nat.one_pos hc hlt (by omega)
      · exact ⟨false, 0, rfl, Nat.zero_le _⟩

theorem fneg_magLe {x : F32} {a : Nat} (hx : MagLe x a) : MagLe (fneg x) a := by
  obtain ⟨s, m, rfl, hm⟩ := hx
  exact ⟨!s, m, rfl, hm⟩

/-- A product does not pass a representable bound of the product of the bounds. -/
theorem fmul_magLe {x y : F32} {a b c : Nat} (hx : MagLe x a) (hy : MagLe y b) (hc : Representable c)
    (hlt : c < overflowMag) (h : a * b ≤ c * 2 ^ 149) : MagLe (fmul x y) c := by
  obtain ⟨s, m, rfl, hm⟩ := hx
  obtain ⟨r, n, rfl, hn⟩ := hy
  exact roundToF32_magLe _ (Nat.two_pow_pos 149) hc hlt ((Nat.mul_le_mul hm hn).trans h)

theorem fadd_fits {x y : F32} (hx : Fits x) (hy : Fits y) : Fits (fadd x y) := by
  cases x <;> cases y <;> simp only [fadd] <;> repeat' split
  all_goals first
    | exact roundToF32_fits _ _ _
    | trivial
    | exact ⟨.of_lt (by decide), by unfold overflowMag; positivity⟩

theorem fneg_fits {x : F32} (hx : Fits x) : Fits (fneg x) := by
  cases x <;> exact hx

theorem fmul_fits (x y : F32) : Fits (fmul x y) := by
  cases x <;> cases y <;> simp only [fmul] <;> repeat' split
  all_goals first
    | exact roundToF32_fits _ _ _
    | trivial

theorem fields_patternOf (s : BitVec 1) (e f : Nat) :
    (patternOf s e f).getLsbD 31 = s.getLsbD 0 ∧
    (patternOf s e f).extractLsb' 23 8 = BitVec.ofNat 8 e ∧
    (patternOf s e f).extractLsb' 0 23 = BitVec.ofNat 23 f := by
  refine ⟨?_, ?_, ?_⟩
  · rw [patternOf, BitVec.getLsbD_append, BitVec.getLsbD_append]
    simp
  · refine BitVec.eq_of_getLsbD_eq fun i hi => ?_
    have h1 : ¬ 23 + i < 23 := by omega
    have h2 : 23 + i - 23 = i := by omega
    simp only [patternOf, BitVec.getLsbD_extractLsb', BitVec.getLsbD_append, hi, decide_true,
      Bool.true_and, h1, if_false, h2, if_true]
  · refine BitVec.eq_of_getLsbD_eq fun i hi => ?_
    simp only [patternOf, BitVec.getLsbD_extractLsb', BitVec.getLsbD_append, hi, decide_true,
      Bool.true_and, if_true, Nat.zero_add]

/-- The value of a pattern, from its three fields (R120). -/
theorem fval_patternOf (s : Bool) {e f : Nat} (he : e < 256) (hf : f < 2 ^ 23) :
    fval (patternOf (BitVec.ofBool s) e f) =
      if e = 255 then (if f = 0 then .inf s else .nan)
      else if e = 0 then .fin s f else .fin s ((2 ^ 23 + f) * 2 ^ (e - 1)) := by
  obtain ⟨h1, h2, h3⟩ := fields_patternOf (BitVec.ofBool s) e f
  have he' : (BitVec.ofNat 8 e).toNat = e := by simp; omega
  have hf' : (BitVec.ofNat 23 f).toNat = f := by simp; omega
  simp only [fval, h1, h2, h3, he', hf']
  simp

/-- A pattern gives back the value it was made from. -/
theorem fval_fbits {x : F32} (h : Fits x) (hx : x ≠ .nan) (d : Word) : fval (fbits d x) = x := by
  cases x with
  | nan => exact absurd rfl hx
  | inf s => simp [fbits, fval_patternOf]
  | fin s m =>
    obtain ⟨hr, hlt⟩ := h
    simp only [fbits]
    split
    · rename_i hm
      rw [fval_patternOf s (by decide) hm]
      simp
    · rename_i hm
      have hm0 : m ≠ 0 := by rintro rfl; exact hm (by decide)
      have hlog1 : 23 ≤ m.log2 := (Nat.le_log2 hm0).mpr (Nat.le_of_not_lt hm)
      have hlog2 : m.log2 < 277 := (Nat.log2_lt hm0).mpr (hlt.trans_eq (by rw [overflowMag, ← pow_add]))
      have hsp : 2 ^ (m.log2 - 22 - 1) ∣ m := by
        have := hr.spacing_dvd
        rwa [spacing, show m.log2 - 23 = m.log2 - 22 - 1 by omega] at this
      obtain ⟨k, hk⟩ := hsp
      have hpos : 0 < 2 ^ (m.log2 - 22 - 1) := Nat.two_pow_pos _
      have hdiv : m / 2 ^ (m.log2 - 22 - 1) = k := by
        exact Nat.div_eq_of_eq_mul_right hpos hk
      have hlow : 2 ^ 23 ≤ k := by
        rw [← hdiv, Nat.le_div_iff_mul_le hpos, ← pow_add, show 23 + (m.log2 - 22 - 1) = m.log2 by omega]
        exact Nat.log2_self_le hm0
      have hhigh : k < 2 ^ 24 := by
        rw [← hdiv, Nat.div_lt_iff_lt_mul hpos, ← pow_add, show 24 + (m.log2 - 22 - 1) = m.log2 + 1 by omega]
        exact Nat.lt_log2_self
      rw [hdiv, fval_patternOf s (by omega) (by omega), if_neg (by omega), if_neg (by omega)]
      congr 1
      rw [show 2 ^ 23 + (k - 2 ^ 23) = k by omega, Nat.mul_comm]
      exact hk.symm

/-- Every pattern's value is one a pattern can hold. -/
theorem fval_fits (u : Word) : Fits (fval u) := by
  simp only [fval]
  have hf := (u.extractLsb' 0 23).isLt
  have he := (u.extractLsb' 23 8).isLt
  split
  · split <;> trivial
  · split
    · refine ⟨.of_lt (by omega), hf.trans (by unfold overflowMag; norm_num)⟩
    · refine ⟨(Representable.of_lt (by omega)).mul_two_pow _, ?_⟩
      calc (2 ^ 23 + (u.extractLsb' 0 23).toNat) * 2 ^ ((u.extractLsb' 23 8).toNat - 1)
          < 2 ^ 24 * 2 ^ ((u.extractLsb' 23 8).toNat - 1) :=
            Nat.mul_lt_mul_of_pos_right (by omega) (Nat.two_pow_pos _)
        _ ≤ 2 ^ 24 * 2 ^ 253 := Nat.mul_le_mul_left _ (Nat.pow_le_pow_right (by omega) (by omega))
        _ = overflowMag := by rw [overflowMag, ← pow_add, ← pow_add]

/-- Every pattern drawn for a NaN is a NaN's (R125). -/
theorem fval_drawnNaN (k : Nat) : fval (drawnNaN k) = .nan := by
  obtain ⟨_, h2, h3⟩ := fields_patternOf (Config.nanSign k) 255 ((Config.nanFraction k).val + 1)
  have hlt := (Config.nanFraction k).isLt
  have hf : (BitVec.ofNat 23 ((Config.nanFraction k).val + 1)).toNat = (Config.nanFraction k).val + 1 := by
    simp only [BitVec.toNat_ofNat]; omega
  simp only [fval, drawnNaN, h2, h3, hf]
  simp

end Sys2Proof.Machine
end

