-- ==== Sys2Proof/Laws/Memory.lean ====
section
/-! SUPPORT. The calibration memory: reading after writing, and the canonical form (`20_memory.md` rules
R44, R47). -/

namespace Sys2Proof.Machine

theorem Memory.wf_nil : Memory.wf [] := by simp [Memory.wf]

theorem Memory.wf_cons {b : Nat} {w : Byte} {rest : Memory} :
    Memory.wf ((b, w) :: rest) ↔ (∀ c ∈ rest, b < c.1) ∧ w ≠ blankByte ∧ Memory.wf rest := by
  simp only [Memory.wf, List.pairwise_cons, List.mem_cons, forall_eq_or_imp]
  tauto

/-- An address below every listed one reads as blank. -/
theorem Memory.read_of_lt {m : Memory} {a : Nat} (h : ∀ c ∈ m, a < c.1) : m.read a = blankByte := by
  induction m with
  | nil => rfl
  | cons c rest ih =>
    obtain ⟨b, w⟩ := c
    have hb : a < b := h (b, w) (by simp)
    simp only [Memory.read, if_neg (Nat.ne_of_lt hb)]
    exact ih fun c hc => h c (by simp [hc])

/-- What is listed after a write was listed before it or is what was written. -/
theorem Memory.mem_write {m : Memory} {a : Nat} {v : Byte} {c : Host.Cell} (h : c ∈ m.write a v) :
    c ∈ m ∨ c = (a, v) := by
  induction m with
  | nil =>
    simp only [Memory.write] at h
    split at h <;> simp_all
  | cons d rest ih =>
    obtain ⟨b, w⟩ := d
    simp only [Memory.write] at h
    split at h
    · split at h <;> simp_all [or_comm, or_left_comm]
    · split at h
      · split at h <;> simp_all [or_comm]
        tauto
      · simp only [List.mem_cons] at h ⊢
        rcases h with h | h
        · exact .inl (.inl h)
        · rcases ih h with h | h
          · exact .inl (.inr h)
          · exact .inr h

/-- A write keeps the canonical form. -/
theorem Memory.write_wf {m : Memory} (h : m.wf) (a : Nat) (v : Byte) : (m.write a v).wf := by
  induction m with
  | nil =>
    simp only [Memory.write]
    split
    · exact Memory.wf_nil
    · exact Memory.wf_cons.mpr ⟨by simp, ‹_›, Memory.wf_nil⟩
  | cons d rest ih =>
    obtain ⟨b, w⟩ := d
    obtain ⟨hlt, hw, hrest⟩ := Memory.wf_cons.mp h
    simp only [Memory.write]
    split
    · rename_i hab
      split
      · exact h
      · refine Memory.wf_cons.mpr ⟨?_, ‹_›, h⟩
        intro c hc
        rcases List.mem_cons.mp hc with rfl | hc
        · exact hab
        · exact lt_trans hab (hlt c hc)
    · split
      · rename_i hab
        split
        · exact hrest
        · exact Memory.wf_cons.mpr ⟨by simpa [hab] using hlt, ‹_›, hrest⟩
      · refine Memory.wf_cons.mpr ⟨?_, hw, ih hrest⟩
        intro c hc
        rcases Memory.mem_write hc with hc | rfl
        · exact hlt c hc
        · dsimp only; omega

/-- Reading after a write: the byte written at that address, the old byte elsewhere. -/
theorem Memory.read_write {m : Memory} (h : m.wf) (a c : Nat) (v : Byte) :
    (m.write a v).read c = if c = a then v else m.read c := by
  induction m with
  | nil =>
    simp only [Memory.write]
    split
    · rename_i hv
      subst hv
      simp [Memory.read]
    · simp [Memory.read]
  | cons d rest ih =>
    obtain ⟨b, w⟩ := d
    obtain ⟨hlt, hw, hrest⟩ := Memory.wf_cons.mp h
    simp only [Memory.write]
    split
    · rename_i hab
      have hblank : Memory.read ((b, w) :: rest) a = blankByte :=
        Memory.read_of_lt fun c hc => by
          rcases List.mem_cons.mp hc with rfl | hc
          · exact hab
          · exact lt_trans hab (hlt c hc)
      split
      · rename_i hv
        split
        · rename_i hc
          rw [hc, hblank, hv]
        · rfl
      · simp [Memory.read]
    · split
      · rename_i hab
        split
        · rename_i hv
          by_cases hc : c = a
          · subst hc
            simp only [if_pos]
            rw [hv]
            exact Memory.read_of_lt fun x hx => hab ▸ hlt x hx
          · simp [Memory.read, hc, ← hab]
        · by_cases hc : c = a <;> simp [Memory.read, hc, ← hab]
      · rename_i hab
        by_cases hc : c = b
        · subst hc
          have : ¬ c = a := fun h => hab h.symm
          simp [Memory.read, this]
        · simp [Memory.read, hc, ih hrest]

end Sys2Proof.Machine
end

