-- ==== Sys2Proof/Laws/State.lean ====
section
/-! SUPPORT. One lemma for each field and each update of the state, so that no later proof unfolds a record
update. Each is true by `rfl`; the proof is written `(rfl)` so that `simp` rewrites with it and the kernel is
not asked to compare the updated states, which could make it unfold the floating-point operations. -/

namespace Sys2Proof.Machine

/-! ### `memWrite` -/

@[simp] theorem State.memWrite_cal (s : State) (a v : Byte) :
    (s.memWrite a v).cal = s.cal.write a.toNat v := (rfl)
@[simp] theorem State.memWrite_calw (s : State) (a v : Byte) :
    (s.memWrite a v).calw = markWritten s.calw (calOffset a) := (rfl)
@[simp] theorem State.memWrite_rawt (s : State) (a v : Byte) : (s.memWrite a v).rawt = s.rawt := (rfl)
@[simp] theorem State.memWrite_rawp (s : State) (a v : Byte) : (s.memWrite a v).rawp = s.rawp := (rfl)
@[simp] theorem State.memWrite_coef (s : State) (a v : Byte) : (s.memWrite a v).coef = s.coef := (rfl)
@[simp] theorem State.memWrite_tlin (s : State) (a v : Byte) : (s.memWrite a v).tlin = s.tlin := (rfl)
@[simp] theorem State.memWrite_press (s : State) (a v : Byte) : (s.memWrite a v).press = s.press := (rfl)
@[simp] theorem State.memWrite_vCoef (s : State) (a v : Byte) : (s.memWrite a v).vCoef = s.vCoef := (rfl)
@[simp] theorem State.memWrite_vRawt (s : State) (a v : Byte) : (s.memWrite a v).vRawt = s.vRawt := (rfl)
@[simp] theorem State.memWrite_vRawp (s : State) (a v : Byte) : (s.memWrite a v).vRawp = s.vRawp := (rfl)
@[simp] theorem State.memWrite_vTlin (s : State) (a v : Byte) : (s.memWrite a v).vTlin = s.vTlin := (rfl)
@[simp] theorem State.memWrite_vPress (s : State) (a v : Byte) : (s.memWrite a v).vPress = s.vPress := (rfl)
@[simp] theorem State.memWrite_err (s : State) (a v : Byte) : (s.memWrite a v).err = s.err := (rfl)
@[simp] theorem State.memWrite_inputs (s : State) (a v : Byte) : (s.memWrite a v).inputs = s.inputs := (rfl)
@[simp] theorem State.memWrite_responses (s : State) (a v : Byte) :
    (s.memWrite a v).responses = s.responses := (rfl)
@[simp] theorem State.memWrite_nanDraws (s : State) (a v : Byte) :
    (s.memWrite a v).nanDraws = s.nanDraws := (rfl)

/-! ### `writeRawt` -/

@[simp] theorem State.writeRawt_cal (s : State) (v : Word) : (s.writeRawt v).cal = s.cal := (rfl)
@[simp] theorem State.writeRawt_calw (s : State) (v : Word) : (s.writeRawt v).calw = s.calw := (rfl)
@[simp] theorem State.writeRawt_rawt (s : State) (v : Word) : (s.writeRawt v).rawt = v := (rfl)
@[simp] theorem State.writeRawt_rawp (s : State) (v : Word) : (s.writeRawt v).rawp = s.rawp := (rfl)
@[simp] theorem State.writeRawt_coef (s : State) (v : Word) : (s.writeRawt v).coef = s.coef := (rfl)
@[simp] theorem State.writeRawt_tlin (s : State) (v : Word) : (s.writeRawt v).tlin = s.tlin := (rfl)
@[simp] theorem State.writeRawt_press (s : State) (v : Word) : (s.writeRawt v).press = s.press := (rfl)
@[simp] theorem State.writeRawt_vCoef (s : State) (v : Word) : (s.writeRawt v).vCoef = s.vCoef := (rfl)
@[simp] theorem State.writeRawt_vRawt (s : State) (v : Word) : (s.writeRawt v).vRawt = true := (rfl)
@[simp] theorem State.writeRawt_vRawp (s : State) (v : Word) : (s.writeRawt v).vRawp = s.vRawp := (rfl)
@[simp] theorem State.writeRawt_vTlin (s : State) (v : Word) : (s.writeRawt v).vTlin = s.vTlin := (rfl)
@[simp] theorem State.writeRawt_vPress (s : State) (v : Word) : (s.writeRawt v).vPress = s.vPress := (rfl)
@[simp] theorem State.writeRawt_err (s : State) (v : Word) : (s.writeRawt v).err = s.err := (rfl)
@[simp] theorem State.writeRawt_inputs (s : State) (v : Word) : (s.writeRawt v).inputs = s.inputs := (rfl)
@[simp] theorem State.writeRawt_responses (s : State) (v : Word) :
    (s.writeRawt v).responses = s.responses := (rfl)
@[simp] theorem State.writeRawt_nanDraws (s : State) (v : Word) :
    (s.writeRawt v).nanDraws = s.nanDraws := (rfl)

/-! ### `writeRawp` -/

@[simp] theorem State.writeRawp_cal (s : State) (v : Word) : (s.writeRawp v).cal = s.cal := (rfl)
@[simp] theorem State.writeRawp_calw (s : State) (v : Word) : (s.writeRawp v).calw = s.calw := (rfl)
@[simp] theorem State.writeRawp_rawt (s : State) (v : Word) : (s.writeRawp v).rawt = s.rawt := (rfl)
@[simp] theorem State.writeRawp_rawp (s : State) (v : Word) : (s.writeRawp v).rawp = v := (rfl)
@[simp] theorem State.writeRawp_coef (s : State) (v : Word) : (s.writeRawp v).coef = s.coef := (rfl)
@[simp] theorem State.writeRawp_tlin (s : State) (v : Word) : (s.writeRawp v).tlin = s.tlin := (rfl)
@[simp] theorem State.writeRawp_press (s : State) (v : Word) : (s.writeRawp v).press = s.press := (rfl)
@[simp] theorem State.writeRawp_vCoef (s : State) (v : Word) : (s.writeRawp v).vCoef = s.vCoef := (rfl)
@[simp] theorem State.writeRawp_vRawt (s : State) (v : Word) : (s.writeRawp v).vRawt = s.vRawt := (rfl)
@[simp] theorem State.writeRawp_vRawp (s : State) (v : Word) : (s.writeRawp v).vRawp = true := (rfl)
@[simp] theorem State.writeRawp_vTlin (s : State) (v : Word) : (s.writeRawp v).vTlin = s.vTlin := (rfl)
@[simp] theorem State.writeRawp_vPress (s : State) (v : Word) : (s.writeRawp v).vPress = s.vPress := (rfl)
@[simp] theorem State.writeRawp_err (s : State) (v : Word) : (s.writeRawp v).err = s.err := (rfl)
@[simp] theorem State.writeRawp_inputs (s : State) (v : Word) : (s.writeRawp v).inputs = s.inputs := (rfl)
@[simp] theorem State.writeRawp_responses (s : State) (v : Word) :
    (s.writeRawp v).responses = s.responses := (rfl)
@[simp] theorem State.writeRawp_nanDraws (s : State) (v : Word) :
    (s.writeRawp v).nanDraws = s.nanDraws := (rfl)

/-! ### `writeCoef` -/

@[simp] theorem State.writeCoef_cal (s : State) (c : Coefs) : (s.writeCoef c).cal = s.cal := (rfl)
@[simp] theorem State.writeCoef_calw (s : State) (c : Coefs) : (s.writeCoef c).calw = s.calw := (rfl)
@[simp] theorem State.writeCoef_rawt (s : State) (c : Coefs) : (s.writeCoef c).rawt = s.rawt := (rfl)
@[simp] theorem State.writeCoef_rawp (s : State) (c : Coefs) : (s.writeCoef c).rawp = s.rawp := (rfl)
@[simp] theorem State.writeCoef_coef (s : State) (c : Coefs) : (s.writeCoef c).coef = c := (rfl)
@[simp] theorem State.writeCoef_tlin (s : State) (c : Coefs) : (s.writeCoef c).tlin = s.tlin := (rfl)
@[simp] theorem State.writeCoef_press (s : State) (c : Coefs) : (s.writeCoef c).press = s.press := (rfl)
@[simp] theorem State.writeCoef_vCoef (s : State) (c : Coefs) : (s.writeCoef c).vCoef = true := (rfl)
@[simp] theorem State.writeCoef_vRawt (s : State) (c : Coefs) : (s.writeCoef c).vRawt = s.vRawt := (rfl)
@[simp] theorem State.writeCoef_vRawp (s : State) (c : Coefs) : (s.writeCoef c).vRawp = s.vRawp := (rfl)
@[simp] theorem State.writeCoef_vTlin (s : State) (c : Coefs) : (s.writeCoef c).vTlin = s.vTlin := (rfl)
@[simp] theorem State.writeCoef_vPress (s : State) (c : Coefs) : (s.writeCoef c).vPress = s.vPress := (rfl)
@[simp] theorem State.writeCoef_err (s : State) (c : Coefs) : (s.writeCoef c).err = s.err := (rfl)
@[simp] theorem State.writeCoef_inputs (s : State) (c : Coefs) : (s.writeCoef c).inputs = s.inputs := (rfl)
@[simp] theorem State.writeCoef_responses (s : State) (c : Coefs) :
    (s.writeCoef c).responses = s.responses := (rfl)
@[simp] theorem State.writeCoef_nanDraws (s : State) (c : Coefs) :
    (s.writeCoef c).nanDraws = s.nanDraws := (rfl)

/-! ### `writeTlin` -/

@[simp] theorem State.writeTlin_cal (s : State) (u : Word) : (s.writeTlin u).cal = s.cal := (rfl)
@[simp] theorem State.writeTlin_calw (s : State) (u : Word) : (s.writeTlin u).calw = s.calw := (rfl)
@[simp] theorem State.writeTlin_rawt (s : State) (u : Word) : (s.writeTlin u).rawt = s.rawt := (rfl)
@[simp] theorem State.writeTlin_rawp (s : State) (u : Word) : (s.writeTlin u).rawp = s.rawp := (rfl)
@[simp] theorem State.writeTlin_coef (s : State) (u : Word) : (s.writeTlin u).coef = s.coef := (rfl)
@[simp] theorem State.writeTlin_tlin (s : State) (u : Word) : (s.writeTlin u).tlin = u := (rfl)
@[simp] theorem State.writeTlin_press (s : State) (u : Word) : (s.writeTlin u).press = s.press := (rfl)
@[simp] theorem State.writeTlin_vCoef (s : State) (u : Word) : (s.writeTlin u).vCoef = s.vCoef := (rfl)
@[simp] theorem State.writeTlin_vRawt (s : State) (u : Word) : (s.writeTlin u).vRawt = s.vRawt := (rfl)
@[simp] theorem State.writeTlin_vRawp (s : State) (u : Word) : (s.writeTlin u).vRawp = s.vRawp := (rfl)
@[simp] theorem State.writeTlin_vTlin (s : State) (u : Word) : (s.writeTlin u).vTlin = true := (rfl)
@[simp] theorem State.writeTlin_vPress (s : State) (u : Word) : (s.writeTlin u).vPress = s.vPress := (rfl)
@[simp] theorem State.writeTlin_err (s : State) (u : Word) : (s.writeTlin u).err = s.err := (rfl)
@[simp] theorem State.writeTlin_inputs (s : State) (u : Word) : (s.writeTlin u).inputs = s.inputs := (rfl)
@[simp] theorem State.writeTlin_responses (s : State) (u : Word) :
    (s.writeTlin u).responses = s.responses := (rfl)
@[simp] theorem State.writeTlin_nanDraws (s : State) (u : Word) :
    (s.writeTlin u).nanDraws = s.nanDraws := (rfl)

/-! ### `writePress` -/

@[simp] theorem State.writePress_cal (s : State) (u : Word) : (s.writePress u).cal = s.cal := (rfl)
@[simp] theorem State.writePress_calw (s : State) (u : Word) : (s.writePress u).calw = s.calw := (rfl)
@[simp] theorem State.writePress_rawt (s : State) (u : Word) : (s.writePress u).rawt = s.rawt := (rfl)
@[simp] theorem State.writePress_rawp (s : State) (u : Word) : (s.writePress u).rawp = s.rawp := (rfl)
@[simp] theorem State.writePress_coef (s : State) (u : Word) : (s.writePress u).coef = s.coef := (rfl)
@[simp] theorem State.writePress_tlin (s : State) (u : Word) : (s.writePress u).tlin = s.tlin := (rfl)
@[simp] theorem State.writePress_press (s : State) (u : Word) : (s.writePress u).press = u := (rfl)
@[simp] theorem State.writePress_vCoef (s : State) (u : Word) : (s.writePress u).vCoef = s.vCoef := (rfl)
@[simp] theorem State.writePress_vRawt (s : State) (u : Word) : (s.writePress u).vRawt = s.vRawt := (rfl)
@[simp] theorem State.writePress_vRawp (s : State) (u : Word) : (s.writePress u).vRawp = s.vRawp := (rfl)
@[simp] theorem State.writePress_vTlin (s : State) (u : Word) : (s.writePress u).vTlin = s.vTlin := (rfl)
@[simp] theorem State.writePress_vPress (s : State) (u : Word) : (s.writePress u).vPress = true := (rfl)
@[simp] theorem State.writePress_err (s : State) (u : Word) : (s.writePress u).err = s.err := (rfl)
@[simp] theorem State.writePress_inputs (s : State) (u : Word) : (s.writePress u).inputs = s.inputs := (rfl)
@[simp] theorem State.writePress_responses (s : State) (u : Word) :
    (s.writePress u).responses = s.responses := (rfl)
@[simp] theorem State.writePress_nanDraws (s : State) (u : Word) :
    (s.writePress u).nanDraws = s.nanDraws := (rfl)

/-! ### `respond` -/

@[simp] theorem State.respond_cal (s : State) (ok : Bool) (d : Word) : (s.respond ok d).cal = s.cal := (rfl)
@[simp] theorem State.respond_calw (s : State) (ok : Bool) (d : Word) :
    (s.respond ok d).calw = s.calw := (rfl)
@[simp] theorem State.respond_rawt (s : State) (ok : Bool) (d : Word) :
    (s.respond ok d).rawt = s.rawt := (rfl)
@[simp] theorem State.respond_rawp (s : State) (ok : Bool) (d : Word) :
    (s.respond ok d).rawp = s.rawp := (rfl)
@[simp] theorem State.respond_coef (s : State) (ok : Bool) (d : Word) :
    (s.respond ok d).coef = s.coef := (rfl)
@[simp] theorem State.respond_tlin (s : State) (ok : Bool) (d : Word) :
    (s.respond ok d).tlin = s.tlin := (rfl)
@[simp] theorem State.respond_press (s : State) (ok : Bool) (d : Word) :
    (s.respond ok d).press = s.press := (rfl)
@[simp] theorem State.respond_vCoef (s : State) (ok : Bool) (d : Word) :
    (s.respond ok d).vCoef = s.vCoef := (rfl)
@[simp] theorem State.respond_vRawt (s : State) (ok : Bool) (d : Word) :
    (s.respond ok d).vRawt = s.vRawt := (rfl)
@[simp] theorem State.respond_vRawp (s : State) (ok : Bool) (d : Word) :
    (s.respond ok d).vRawp = s.vRawp := (rfl)
@[simp] theorem State.respond_vTlin (s : State) (ok : Bool) (d : Word) :
    (s.respond ok d).vTlin = s.vTlin := (rfl)
@[simp] theorem State.respond_vPress (s : State) (ok : Bool) (d : Word) :
    (s.respond ok d).vPress = s.vPress := (rfl)
@[simp] theorem State.respond_err (s : State) (ok : Bool) (d : Word) : (s.respond ok d).err = s.err := (rfl)
@[simp] theorem State.respond_inputs (s : State) (ok : Bool) (d : Word) :
    (s.respond ok d).inputs = s.inputs := (rfl)
@[simp] theorem State.respond_responses (s : State) (ok : Bool) (d : Word) :
    (s.respond ok d).responses = { ok := ok, data := d } :: s.responses := (rfl)
@[simp] theorem State.respond_nanDraws (s : State) (ok : Bool) (d : Word) :
    (s.respond ok d).nanDraws = s.nanDraws := (rfl)

/-! ### `present` -/

@[simp] theorem State.present_cal (s : State) (w : CommandWord) : (s.present w).cal = s.cal := (rfl)
@[simp] theorem State.present_calw (s : State) (w : CommandWord) : (s.present w).calw = s.calw := (rfl)
@[simp] theorem State.present_rawt (s : State) (w : CommandWord) : (s.present w).rawt = s.rawt := (rfl)
@[simp] theorem State.present_rawp (s : State) (w : CommandWord) : (s.present w).rawp = s.rawp := (rfl)
@[simp] theorem State.present_coef (s : State) (w : CommandWord) : (s.present w).coef = s.coef := (rfl)
@[simp] theorem State.present_tlin (s : State) (w : CommandWord) : (s.present w).tlin = s.tlin := (rfl)
@[simp] theorem State.present_press (s : State) (w : CommandWord) : (s.present w).press = s.press := (rfl)
@[simp] theorem State.present_vCoef (s : State) (w : CommandWord) : (s.present w).vCoef = s.vCoef := (rfl)
@[simp] theorem State.present_vRawt (s : State) (w : CommandWord) : (s.present w).vRawt = s.vRawt := (rfl)
@[simp] theorem State.present_vRawp (s : State) (w : CommandWord) : (s.present w).vRawp = s.vRawp := (rfl)
@[simp] theorem State.present_vTlin (s : State) (w : CommandWord) : (s.present w).vTlin = s.vTlin := (rfl)
@[simp] theorem State.present_vPress (s : State) (w : CommandWord) : (s.present w).vPress = s.vPress := (rfl)
@[simp] theorem State.present_err (s : State) (w : CommandWord) : (s.present w).err = s.err := (rfl)
@[simp] theorem State.present_inputs (s : State) (w : CommandWord) :
    (s.present w).inputs = .command w :: s.inputs := (rfl)
@[simp] theorem State.present_responses (s : State) (w : CommandWord) :
    (s.present w).responses = s.responses := (rfl)
@[simp] theorem State.present_nanDraws (s : State) (w : CommandWord) :
    (s.present w).nanDraws = s.nanDraws := (rfl)

/-! ### `resetBlock` -/

@[simp] theorem State.resetBlock_cal (s : State) : s.resetBlock.cal = [] := (rfl)
@[simp] theorem State.resetBlock_calw (s : State) : s.resetBlock.calw = 0#21 := (rfl)
@[simp] theorem State.resetBlock_rawt (s : State) : s.resetBlock.rawt = 0#32 := (rfl)
@[simp] theorem State.resetBlock_rawp (s : State) : s.resetBlock.rawp = 0#32 := (rfl)
@[simp] theorem State.resetBlock_coef (s : State) : s.resetBlock.coef = Coefs.blank := (rfl)
@[simp] theorem State.resetBlock_tlin (s : State) : s.resetBlock.tlin = 0#32 := (rfl)
@[simp] theorem State.resetBlock_press (s : State) : s.resetBlock.press = 0#32 := (rfl)
@[simp] theorem State.resetBlock_vCoef (s : State) : s.resetBlock.vCoef = false := (rfl)
@[simp] theorem State.resetBlock_vRawt (s : State) : s.resetBlock.vRawt = false := (rfl)
@[simp] theorem State.resetBlock_vRawp (s : State) : s.resetBlock.vRawp = false := (rfl)
@[simp] theorem State.resetBlock_vTlin (s : State) : s.resetBlock.vTlin = false := (rfl)
@[simp] theorem State.resetBlock_vPress (s : State) : s.resetBlock.vPress = false := (rfl)
@[simp] theorem State.resetBlock_err (s : State) : s.resetBlock.err = 0#4 := (rfl)
@[simp] theorem State.resetBlock_inputs (s : State) : s.resetBlock.inputs = s.inputs := (rfl)
@[simp] theorem State.resetBlock_responses (s : State) : s.resetBlock.responses = s.responses := (rfl)
@[simp] theorem State.resetBlock_nanDraws (s : State) : s.resetBlock.nanDraws = s.nanDraws := (rfl)

/-! ### `afterDraw` -/

@[simp] theorem State.afterDraw_cal (s : State) (x : F32) : (s.afterDraw x).cal = s.cal := (rfl)
@[simp] theorem State.afterDraw_calw (s : State) (x : F32) : (s.afterDraw x).calw = s.calw := (rfl)
@[simp] theorem State.afterDraw_rawt (s : State) (x : F32) : (s.afterDraw x).rawt = s.rawt := (rfl)
@[simp] theorem State.afterDraw_rawp (s : State) (x : F32) : (s.afterDraw x).rawp = s.rawp := (rfl)
@[simp] theorem State.afterDraw_coef (s : State) (x : F32) : (s.afterDraw x).coef = s.coef := (rfl)
@[simp] theorem State.afterDraw_tlin (s : State) (x : F32) : (s.afterDraw x).tlin = s.tlin := (rfl)
@[simp] theorem State.afterDraw_press (s : State) (x : F32) : (s.afterDraw x).press = s.press := (rfl)
@[simp] theorem State.afterDraw_vCoef (s : State) (x : F32) : (s.afterDraw x).vCoef = s.vCoef := (rfl)
@[simp] theorem State.afterDraw_vRawt (s : State) (x : F32) : (s.afterDraw x).vRawt = s.vRawt := (rfl)
@[simp] theorem State.afterDraw_vRawp (s : State) (x : F32) : (s.afterDraw x).vRawp = s.vRawp := (rfl)
@[simp] theorem State.afterDraw_vTlin (s : State) (x : F32) : (s.afterDraw x).vTlin = s.vTlin := (rfl)
@[simp] theorem State.afterDraw_vPress (s : State) (x : F32) : (s.afterDraw x).vPress = s.vPress := (rfl)
@[simp] theorem State.afterDraw_err (s : State) (x : F32) : (s.afterDraw x).err = s.err := (rfl)
@[simp] theorem State.afterDraw_inputs (s : State) (x : F32) : (s.afterDraw x).inputs = s.inputs := (rfl)
@[simp] theorem State.afterDraw_responses (s : State) (x : F32) : (s.afterDraw x).responses = s.responses := (rfl)

@[simp] theorem State.afterDraw_nanDraws (s : State) (x : F32) :
    (s.afterDraw x).nanDraws = if x = .nan then s.nanDraws + 1 else s.nanDraws := (rfl)

/-- No draw where the value is not a NaN. -/
theorem State.afterDraw_of_ne_nan (s : State) (x : F32) (h : x ≠ .nan) : s.afterDraw x = s := by
  simp [State.afterDraw, h]

end Sys2Proof.Machine
end

