-- ==== Sys2Proof/Laws/Ops.lean ====
section
/-! SUPPORT. One lemma for each shared operation, and what a command can do: be absorbed, raise a fault or
complete (`60_exceptions.md` rule R165). -/

namespace Sys2Proof.Machine

@[simp] theorem State.faulted_iff (s : State) : s.faulted = true ↔ s.err ≠ 0#4 := by
  simp [State.faulted]

theorem unlessFaulted_of_ok {s : State} (h : s.err = 0#4) (run : Result) : unlessFaulted s run = run := by
  simp [unlessFaulted, State.faulted, h]

theorem unlessFaulted_of_faulted {s : State} (h : s.err ≠ 0#4) (run : Result) :
    unlessFaulted s run = absorb s := by
  simp [unlessFaulted, State.faulted, h]

/-- Everything the prologue can do. -/
theorem unlessFaulted_next {s t : State} {run : Result} (h : unlessFaulted s run = .next t) :
    (s.err ≠ 0#4 ∧ t = s.respond false (codeData s.err)) ∨ (s.err = 0#4 ∧ run = .next t) := by
  by_cases he : s.err = 0#4
  · exact .inr ⟨he, by rwa [unlessFaulted_of_ok he] at h⟩
  · rw [unlessFaulted_of_faulted he, absorb] at h
    exact .inl ⟨he, by injection h with h; exact h.symm⟩

theorem raise_next (f : FaultCause) (s : State) :
    raise f s = .next { s with err := f.code, responses := { ok := false, data := codeData f.code } :: s.responses } :=
  rfl

theorem complete_next (d : Word) (s : State) :
    complete d s = .next { s with responses := { ok := true, data := d } :: s.responses } := rfl

@[simp] theorem FaultCause.code_ne_zero (f : FaultCause) : f.code ≠ 0#4 := by cases f <;> decide

theorem FaultCause.code_le (f : FaultCause) : f.code.toNat ≤ 3 := by cases f <;> decide

theorem legalCalAddr_iff (a : Byte) : legalCalAddr a = true ↔ 0x31 ≤ a.toNat ∧ a.toNat ≤ 0x45 := by
  rw [legalCalAddr, Bool.and_eq_true, decide_eq_true_iff, decide_eq_true_iff]
  rfl

/-- Reading a byte through its `CALW` bit. -/
theorem State.memRead_of_written {s : State} {a : Byte} (h : s.calw.getLsbD (calOffset a) = true) :
    s.memRead a = some (s.cal.read a.toNat) := by
  simp [State.memRead, h]

theorem State.memRead_of_unwritten {s : State} {a : Byte} (h : s.calw.getLsbD (calOffset a) = false) :
    s.memRead a = none := by
  simp [State.memRead, h]

/-- A bit of the mask after a write: that bit is 1, the others are as they were. -/
theorem getLsbD_markWritten (calw : BitVec 21) (o i : Nat) (hi : i < 21) :
    (markWritten calw o).getLsbD i = (calw.getLsbD i || decide (i = o)) := by
  simp only [markWritten, BitVec.getLsbD_or, BitVec.getLsbD_shiftLeft, BitVec.getLsbD_one, hi,
    decide_true, Bool.true_and]
  congr 1
  by_cases h : i = o
  · simp [h]
  · rcases Nat.lt_or_gt_of_ne h with h' | h'
    · simp [h, h']
    · have : i - o ≠ 0 := by omega
      simp [h, this]

theorem calFull_iff (s : State) : s.calFull = true ↔ s.calw = 0x1FFFFF#21 := by
  simp [State.calFull]

/-- Everything the command port gives. -/
theorem takeInput_none {s : State} : s.takeInput = none ↔ s.inputs = [] := by
  unfold State.takeInput
  split <;> simp_all

theorem takeInput_cons {s : State} {i : HostInput} {rest : List HostInput} (h : s.inputs = i :: rest) :
    s.takeInput = some (i, { s with inputs := rest }) := by
  simp [State.takeInput, h]

/-- What one command can do: be absorbed, raise one fault, or complete (R165). -/
theorem exec_cases (i : Instr) (s : State) :
    (i ≠ .rst ∧ s.err ≠ 0#4 ∧ exec i s = absorb s) ∨
    (i ≠ .rst ∧ s.err = 0#4 ∧ ∃ f, exec i s = raise f s) ∨
    ((i = .rst ∨ s.err = 0#4) ∧ ∃ d t, exec i s = complete d t) := by
  cases i with
  | rst => exact .inr (.inr ⟨.inl rfl, _, _, rfl⟩)
  | _ =>
    by_cases he : s.err = 0#4
    · right
      simp only [exec, execLdcal, execLdrawt, execLdrawp, execLdt, execDecode, execCompt, execCompp, execRd,
        unlessFaulted_of_ok he, he, true_and, ne_eq, reduceCtorEq, not_false_eq_true, false_or]
      first
        | exact .inr ⟨_, _, rfl⟩
        | (split
           · exact .inr ⟨_, _, rfl⟩
           · exact .inl ⟨_, rfl⟩)
        | (split
           · exact .inl ⟨_, rfl⟩
           · split
             · exact .inl ⟨_, rfl⟩
             · exact .inr ⟨_, _, rfl⟩)
    · left
      simp [exec, execLdcal, execLdrawt, execLdrawp, execLdt, execDecode, execCompt, execCompp, execRd,
        unlessFaulted_of_faulted he, he]

/-- Everything one step can do. -/
theorem step_cases (s : State) :
    (s.inputs = [] ∧ step s = .next s) ∨
    (∃ rest, s.inputs = .resetPin :: rest ∧ step s = .next { s with inputs := rest }.resetBlock) ∨
    (∃ w rest, s.inputs = .command w :: rest ∧ step s = runWord w { s with inputs := rest }) := by
  cases h : s.inputs with
  | nil => exact .inl ⟨rfl, by simp [step, runInput, State.takeInput, h]⟩
  | cons i rest =>
    cases i with
    | resetPin => exact .inr (.inl ⟨rest, rfl, by simp [step, runInput, takeInput_cons h]⟩)
    | command w => exact .inr (.inr ⟨w, rest, rfl, by simp [step, runInput, takeInput_cons h]⟩)

end Sys2Proof.Machine
end

