-- ==== Sys2Proof/Laws/PerInstr.lean ====
section
/-! SUPPORT. Statements made for every command, one lemma per constructor. -/

namespace Sys2Proof.Laws

/-- `30_encoding.md` rule R64: the `mask` and `match` columns of a command's row. -/
def rowOf : Instr → CommandWord × CommandWord
  | .rst => (0xFFFFFFFFFF#40, 0x0100000000#40)
  | .ldcal _ _ => (0xFFFFFF0000#40, 0x1000000000#40)
  | .ldrawt _ _ _ => (0xFFFF000000#40, 0x1100000000#40)
  | .ldrawp _ _ _ => (0xFFFF000000#40, 0x1200000000#40)
  | .ldt _ => (0xFF00000000#40, 0x1300000000#40)
  | .decode => (0xFFFFFFFFFF#40, 0x2000000000#40)
  | .compt => (0xFFFFFFFFFF#40, 0x2100000000#40)
  | .compp => (0xFFFFFFFFFF#40, 0x2200000000#40)
  | .rd _ => (0xFFFFFFFF00#40, 0x3000000000#40)

namespace RowMatch

/-- The word of a command is in its row: `w & mask = match` (R64). -/
def Statement (i : Instr) : Prop := encode i &&& (rowOf i).1 = (rowOf i).2

theorem rst : Statement .rst := by unfold Statement; decide

theorem ldcal (addr byte : Byte) : Statement (.ldcal addr byte) := by
  refine BitVec.eq_of_getLsbD_eq fun i hi => ?_
  simp only [encode, opcode, operandData, rowOf, BitVec.getLsbD_and, BitVec.getLsbD_append]
  interval_cases i <;> simp

theorem ldrawt (xlsb lsb msb : Byte) : Statement (.ldrawt xlsb lsb msb) := by
  refine BitVec.eq_of_getLsbD_eq fun i hi => ?_
  simp only [encode, opcode, operandData, rowOf, BitVec.getLsbD_and, BitVec.getLsbD_append]
  interval_cases i <;> simp

theorem ldrawp (xlsb lsb msb : Byte) : Statement (.ldrawp xlsb lsb msb) := by
  refine BitVec.eq_of_getLsbD_eq fun i hi => ?_
  simp only [encode, opcode, operandData, rowOf, BitVec.getLsbD_and, BitVec.getLsbD_append]
  interval_cases i <;> simp

theorem ldt (fbits : Word) : Statement (.ldt fbits) := by
  refine BitVec.eq_of_getLsbD_eq fun i hi => ?_
  simp only [encode, opcode, operandData, rowOf, BitVec.getLsbD_and, BitVec.getLsbD_append]
  interval_cases i <;> simp

theorem decode : Statement .decode := by unfold Statement; decide

theorem compt : Statement .compt := by unfold Statement; decide

theorem compp : Statement .compp := by unfold Statement; decide

theorem rd (sel : Byte) : Statement (.rd sel) := by
  refine BitVec.eq_of_getLsbD_eq fun i hi => ?_
  simp only [encode, opcode, operandData, rowOf, BitVec.getLsbD_and, BitVec.getLsbD_append]
  interval_cases i <;> simp

end RowMatch

end Sys2Proof.Laws
end

