-- ==== Sys2Proof/Tests/Slice0.lean ====
section
/-! SUPPORT. Small tests, each with the place of the spec its expected value comes from, and for each
statement of Certificates/Slice0/Obligations.lean a concrete case that meets its hypotheses. -/

namespace Sys2Proof.Tests

open Sys2Proof.Machine

/-- The next state meets a check. -/
def nextHas (r : Result) (p : State → Bool) : Bool :=
  match r with
  | .next t => p t
  | .fault _ => false
  | .refused _ => false

/-- The calibration memory with these bytes from 0x31 up (zero bytes are not listed). -/
def calOf (bytes : List Byte) : Memory :=
  (bytes.zipIdx.map (fun x => (0x31 + x.2, x.1))).filter (fun c => c.2 != blankByte)

/-- The golden calibration block G (V6). -/
def blockG : List Byte :=
  [0x70#8, 0x6B#8, 0x68#8, 0x49#8, 0xF6#8, 0x55#8, 0x01#8, 0xF5#8, 0xF5#8, 0x23#8, 0x00#8, 0xC5#8, 0x62#8,
    0xBA#8, 0x77#8, 0xF3#8, 0xF6#8, 0x74#8, 0x40#8, 0x14#8, 0xC4#8]

/-- The boundary block Bd (V12). -/
def blockBd : List Byte :=
  [0x00#8, 0x80#8, 0xFF#8, 0x7F#8, 0x80#8, 0x00#8, 0x80#8, 0x00#8, 0x80#8, 0x7F#8, 0x80#8, 0x01#8, 0x00#8,
    0x00#8, 0x01#8, 0x7F#8, 0x80#8, 0xFF#8, 0x7F#8, 0x7F#8, 0x80#8]

/-- The coefficients of block G, from the table of V6. -/
def coefsG : Coefs :=
  { t1 := 0x4AD6E000#32, t2 := 0x3792D000#32, t3 := 0xA9200000#32, p1 := 0xBC7AAC00#32
    p2 := 0xB8141600#32, p3 := 0x320C0000#32, p4 := 0x00000000#32, p5 := 0x48458A00#32
    p6 := 0x43EF7400#32, p7 := 0xBD500000#32, p8 := 0xB9A00000#32, p9 := 0x2E80E800#32
    p10 := 0x29A00000#32, p11 := 0xA1F00000#32 }

/-- The coefficients of block Bd, from the table of V12. -/
def coefsBd : Coefs :=
  { t1 := 0x4B000000#32, t2 := 0x37FFFE00#32, t3 := 0xAB000000#32, p1 := 0x3C800000#32
    p2 := 0xB8C00000#32, p3 := 0x32FE0000#32, p4 := 0xB0800000#32, p5 := 0x41000000#32
    p6 := 0x40800000#32, p7 := 0x3EFE0000#32, p8 := 0xBB800000#32, p9 := 0x2EFFFE00#32
    p10 := 0x2AFE0000#32, p11 := 0xA2800000#32 }

/-- All 21 bytes loaded, nothing decoded. -/
def loaded (bytes : List Byte) : State :=
  { State.reset with calw := 0x1FFFFF#21, cal := calOf bytes }

/-- The end of the golden measurement (PROG1): every register written. -/
def ready : State :=
  { loaded blockG with
    coef := coefsG, rawt := 0x00815A3C#32, rawp := 0x00632F10#32, tlin := 0x41C88034#32
    press := 0x47D92737#32, vCoef := true, vRawt := true, vRawp := true, vTlin := true, vPress := true }

/-- The host presents one word. -/
def given (s : State) (w : CommandWord) : State := { s with inputs := [.command w] }

/-- The reset state after a fault (V25). -/
def faulted : State := { State.reset with err := 2#4 }

/-! ### Well-formedness and decoding -/

/-- R64: the value conditions. -/
theorem test_wf_refuses_address_below : Instr.wf (.ldcal 0x30#8 0x70#8) = false := by decide
theorem test_wf_refuses_address_above : Instr.wf (.ldcal 0x46#8 0x00#8) = false := by decide
theorem test_wf_refuses_selector : Instr.wf (.rd 0x0E#8) = false ∧ Instr.wf (.rd 0x30#8) = false := by decide
/-- R150: 41 legal selectors. -/
theorem test_41_selectors : ((List.range 256).filter (fun n => legalSel (BitVec.ofNat 8 n))).length = 41 := by
  decide

/-- The words of the rules' examples (R80 to R83, R111, R127, R128, R150, R151). -/
theorem test_decode_rst : decode 0x0100000000#40 = .ok .rst := by decide
theorem test_decode_ldcal : decode 0x1000003170#40 = .ok (.ldcal 0x31#8 0x70#8) := by decide
theorem test_decode_ldrawt : decode 0x1100815A3C#40 = .ok (.ldrawt 0x3C#8 0x5A#8 0x81#8) := by decide
theorem test_decode_ldrawp : decode 0x1200632F10#40 = .ok (.ldrawp 0x10#8 0x2F#8 0x63#8) := by decide
theorem test_decode_ldt : decode 0x1341C80000#40 = .ok (.ldt 0x41C80000#32) := by decide
theorem test_decode_decode : decode 0x2000000000#40 = .ok .decode := by decide
theorem test_decode_compt : decode 0x2100000000#40 = .ok .compt := by decide
theorem test_decode_compp : decode 0x2200000000#40 = .ok .compp := by decide
theorem test_decode_rd : decode 0x3000000011#40 = .ok (.rd 0x11#8) := by decide
/-- V24: illegal words, one for each reason. -/
theorem test_decode_refuses :
    decode 0x0000000000#40 = .error (.unassignedOp 0x00#8) ∧
    decode 0x0100000001#40 = .error (.mustBeZero 0x01#8) ∧
    decode 0x1000003070#40 = .error (.badAddress 0x30#8) ∧
    decode 0x1101000000#40 = .error (.mustBeZero 0x11#8) ∧
    decode 0x3000000046#40 = .error (.badSelector 0x46#8) ∧
    decode 0x3000000110#40 = .error (.mustBeZero 0x30#8) := by decide
/-- The opcode table's numbers. -/
theorem test_table_word : decodeTableWord 40 0x1000004500 = some (.ldcal 0x45#8 0x00#8) := by decide

/-! ### Floating point -/

/-- R120, R121: one, the largest finite value, the smallest subnormal, minus infinity. -/
theorem test_fval : fval 0x3F800000#32 = .fin false (2 ^ 149) ∧ fval 0x00000001#32 = .fin false 1 ∧
    fval 0xFF800000#32 = .inf true ∧ fval 0x7F800001#32 = .nan := by decide
/-- V22b: `b3 = P4 ⊗ T3_` is the subnormal 0x80100000, not a zero. -/
theorem test_subnormal_kept : fbits 0#32 (fmul (fval 0xB0800000#32) (fval 0x0E000000#32)) = 0x80100000#32 := by
  decide
/-- V22a: `T3_` overflows. -/
theorem test_overflow : fmul (fval 0x6A800000#32) (fval 0x55000000#32) = .inf false := by decide
/-- V16: `u = (+0.0) ⊗ T3` is `-0.0`, and `(+0.0) ⊕ (-0.0)` is `+0.0`. -/
theorem test_signed_zeros : fmul (.fin false 0) (fval 0xAB000000#32) = .fin true 0 ∧
    fadd (.fin false 0) (.fin true 0) = .fin false 0 := by decide
/-- V20a: the four-term sum of `q`, left to right. -/
theorem test_v20_q : fbits 0#32 (pressQ coefsG (fval 0x41C44B51#32)) = 0xBC84647D#32 := by decide
/-- V10: `d3` is a product (V11 gives what a sum would be). -/
theorem test_v10_d3 : fbits 0#32 (pressD3 coefsG (rawValue 0x632F10#32) (fval 0x41C88034#32)) = 0x451F8033#32 := by
  decide
/-- R69: `LDT.F 25.0` is `LDT 0x41C80000` (V21a); `0.1` rounds to 0x3DCCCCCD (binary32, K3). -/
theorem test_ldt_f : pseudoLdtF false 250 (-1) = [.ldt 0x41C80000#32] ∧
    pseudoLdtF false 1 (-1) = [.ldt 0x3DCCCCCD#32] := by decide
/-- R69: the 28 words of PROG1, in their order. -/
theorem test_measure :
    (pseudoMeasure 0x10#8 0x2F#8 0x63#8 0x3C#8 0x5A#8 0x81#8 ⟨blockG.toArray, rfl⟩).map encode =
      [0x1200632F10#40, 0x1100815A3C#40] ++
      [0x1000003170#40, 0x100000326B#40, 0x1000003368#40, 0x1000003449#40, 0x10000035F6#40, 0x1000003655#40,
        0x1000003701#40] ++
      [0x10000038F5#40, 0x10000039F5#40, 0x1000003A23#40, 0x1000003B00#40, 0x1000003CC5#40, 0x1000003D62#40,
        0x1000003EBA#40] ++
      [0x1000003F77#40, 0x10000040F3#40, 0x10000041F6#40, 0x1000004274#40, 0x1000004340#40, 0x1000004414#40,
        0x10000045C4#40] ++
      [0x2000000000#40, 0x2100000000#40, 0x2200000000#40, 0x3000000010#40, 0x3000000011#40] := by
  decide

/-- R68, in the words of the examples of R81 and R150. -/
theorem test_asm_text : asmText (.ldrawt 0x3C#8 0x5A#8 0x81#8) = "LDRAWT 0x3C, 0x5A, 0x81" ∧
    asmText (.rd 0x11#8) = "RD PRESS" ∧ asmText (.ldt 0x41C80000#32) = "LDT 0x41C80000" := by decide

/-! ### The commands -/

/-- R80: the example. -/
theorem test_ldcal_example : nextHas (exec (.ldcal 0x31#8 0x70#8) State.reset)
    (fun t => t.cal.read 0x31 == 0x70#8 && t.calw == 1#21 && t.vCoef == false) = true := by decide
/-- V24: the last address. -/
theorem test_ldcal_last : nextHas (exec (.ldcal 0x45#8 0xFF#8) State.reset)
    (fun t => t.calw == 0x100000#21 && t.err == 0#4) = true := by decide
/-- S1. -/
theorem test_ldrawt_s1 : nextHas (exec (.ldrawt 0x01#8 0x02#8 0x03#8) State.reset)
    (fun t => t.rawt == 0x00030201#32 && t.vRawt && !t.vRawp) = true := by decide
/-- V13: never sign-extended. -/
theorem test_ldrawp_top_bit : nextHas (exec (.ldrawp 0x00#8 0x00#8 0x80#8) State.reset)
    (fun t => t.rawp == 0x00800000#32 && t.vRawp && !t.vRawt) = true := by decide
/-- V23: a signalling NaN is kept. -/
theorem test_ldt_keeps_snan : nextHas (exec (.ldt 0x7F800001#32) State.reset)
    (fun t => t.tlin == 0x7F800001#32 && t.vTlin) = true := by decide
/-- V6. -/
theorem test_decode_golden : nextHas (exec .decode (loaded blockG))
    (fun t => t.coef == coefsG && t.vCoef) = true := by decide
/-- V12: P1 read unsigned, P2's bias past 16 bits. -/
theorem test_decode_boundary : nextHas (exec .decode (loaded blockBd))
    (fun t => t.coef == coefsBd) = true := by decide
/-- V9. -/
theorem test_compt_golden : nextHas (exec .compt ready) (fun t => t.tlin == 0x41C88034#32) = true := by
  decide
/-- V20b: the association of `d1 × d1 × t3`. -/
theorem test_compt_association : nextHas (exec .compt { ready with rawt := 0x823099#32 })
    (fun t => t.tlin == 0x41D02377#32) = true := by decide
/-- V10. -/
theorem test_compp_golden : nextHas (exec .compp ready) (fun t => t.press == 0x47D92737#32) = true := by
  decide
/-- V20a: the association of the four-term sums. -/
theorem test_compp_association : nextHas (exec .compp { ready with rawp := 0x6AB864#32, tlin := 0x41C44B51#32 })
    (fun t => t.press == 0x47C9E02A#32) = true := by decide
/-- V26, after step 28. -/
theorem test_rd_status : nextHas (exec (.rd 0x20#8) ready)
    (fun t => t.responses == [{ ok := true, data := 0x0000003F#32 }]) = true := by decide
/-- V23: a byte that was never written. -/
theorem test_rd_unwritten_byte : nextHas (exec (.rd 0x31#8) State.reset)
    (fun t => t.err == 3#4 && t.responses == [{ ok := false, data := 3#32 }]) = true := by decide
/-- V25, row 5: `RST` leaves the faulted state. -/
theorem test_rst_after_fault : nextHas (exec .rst faulted)
    (fun t => t.err == 0#4 && t.responses == [{ ok := true, data := 0#32 }]) = true := by decide
/-- V25, row 3: an illegal word is absorbed with the first code. -/
theorem test_absorbed : nextHas (step (given faulted 0xFFFFFFFFFF#40))
    (fun t => t.err == 2#4 && t.responses == [{ ok := false, data := 2#32 }]) = true := by decide
/-- V25, row 1: legality is checked first. -/
theorem test_priority : nextHas (step (State.reset.withFetchWord 40 0x2000000001))
    (fun t => t.err == 1#4) = true := by decide

/-! ### Cases that meet the hypotheses of the statements -/

theorem ready_meets_invariant : ready.Inv := by
  refine ⟨by decide, by decide, by decide, by decide, by decide, by decide, ?_,
    fun _ => rfl, fun _ => ⟨rfl, rfl, rfl⟩⟩
  intro i hi
  refine ⟨[27504, 18792, -10, -16043, -18955, 35, 0, 25285, 30650, -13, -10, 16500, 20, -60].getD i 0, ?_⟩
  interval_cases i <;> decide

theorem witness_DecodeOfEncodeIsTheCommand : Instr.wf (.ldcal 0x31#8 0xFF#8) = true ∧
    Instr.wf (.ldcal 0x45#8 0x00#8) = true ∧ Instr.wf (.rd 0x0D#8) = true ∧ Instr.wf (.rd 0x45#8) = true := by
  decide
theorem witness_EncodeOfDecodeIsTheWord : decode 0x1000004500#40 = .ok (.ldcal 0x45#8 0x00#8) := by decide
theorem witness_OperandsAreUnsignedSlices :
    decode 0x10000045FF#40 = .ok (.ldcal 0x45#8 0xFF#8) ∧
    decode 0x1100FFFFFF#40 = .ok (.ldrawt 0xFF#8 0xFF#8 0xFF#8) ∧
    decode 0x12000000FF#40 = .ok (.ldrawp 0xFF#8 0x00#8 0x00#8) ∧
    decode 0x13FFFFFFFF#40 = .ok (.ldt 0xFFFFFFFF#32) ∧ decode 0x3000000045#40 = .ok (.rd 0x45#8) := by decide
theorem witness_StepExecutesTheDecodedCommand :
    (given ready 0x2100000000#40).inputs = .command 0x2100000000#40 :: [] ∧
    decode 0x2100000000#40 = .ok .compt := by decide
theorem witness_StepWaitsForACommand : ready.inputs = [] := by decide
theorem witness_ResetPinAndRstAgree : ({ ready with inputs := [.resetPin] } : State).inputs = .resetPin :: [] ∧
    (given faulted 0x0100000000#40).inputs = .command 0x0100000000#40 :: [] := by decide
/-- One word for each line of R65. -/
theorem witness_IllegalWordsRaiseIllegalCommand : ready.err = 0#4 ∧ IllegalByR65 0x1400000000#40 ∧
    IllegalByR65 0x2000000001#40 ∧ IllegalByR65 0x1000003000#40 ∧ IllegalByR65 0x1000004600#40 ∧
    IllegalByR65 0x1201000000#40 ∧ IllegalByR65 0x300000000E#40 ∧ IllegalByR65 0x3000000046#40 := by
  simp [IllegalByR65, IllegalByR65.unassignedSel]
  decide
theorem witness_OneResponsePerCommandWord :
    (given ready 0x3000000010#40).inputs = .command 0x3000000010#40 :: [] := by decide
theorem witness_FaultsArePrecise : (given State.reset 0x2000000000#40).err = 0#4 ∧
    ∃ t, step (given State.reset 0x2000000000#40) = .next t ∧ t.err ≠ 0#4 := ⟨rfl, _, rfl, by decide⟩
theorem witness_FaultedStateAbsorbs : (given faulted 0x0100000001#40).err ≠ 0#4 ∧
    0x0100000001#40 ≠ 0x0100000000#40 := by decide
/-- Each way out, and a word that is not one. -/
theorem witness_OnlyResetLeavesTheFaultedState : (given faulted 0x0100000000#40).err ≠ 0#4 ∧
    (∃ t, step (given faulted 0x0100000000#40) = .next t ∧ t.err = 0#4) ∧
    (∃ t, step { faulted with inputs := [.resetPin] } = .next t ∧ t.err = 0#4) ∧
    ∃ t, step (given faulted 0x3000000020#40) = .next t ∧ t.err = faulted.err :=
  ⟨by decide, ⟨_, rfl, rfl⟩, ⟨_, rfl, rfl⟩, _, rfl, rfl⟩
/-- 20 of the 21 bytes written (V23). -/
theorem witness_CalIncompleteExactlyFromDecode :
    ({ loaded blockG with calw := 0x0FFFFF#21 } : State).calw ≠ 0x1FFFFF#21 ∧
    ∃ t, exec .decode { loaded blockG with calw := 0x0FFFFF#21 } = .next t ∧ t.err = 2#4 :=
  ⟨by decide, _, rfl, rfl⟩
/-- The first and the last selector of each range. -/
theorem witness_NotReadyExactlyByTheTable : State.reset.err = 0#4 ∧
    (∀ i ∈ [Instr.compt, .compp, .rd 0x00#8, .rd 0x0D#8, .rd 0x10#8, .rd 0x11#8, .rd 0x12#8, .rd 0x13#8,
      .rd 0x31#8, .rd 0x45#8], i.wf = true ∧ notReadyWhen State.reset i = true) ∧
    (∀ i ∈ [Instr.rd 0x20#8, .rd 0x21#8], i.wf = true ∧ notReadyWhen State.reset i = false) := by
  decide
theorem witness_IllFormedOperandsRaiseIllegalCommand : Instr.wf (.ldcal 0x46#8 0x00#8) = false ∧
    Instr.wf (.rd 0x22#8) = false ∧ ready.err = 0#4 := by decide
theorem witness_PressureNeedsATemperature : State.reset.err = 0#4 ∧ State.reset.vTlin = false ∧
    (∃ t, exec (.ldt 0x41C80000#32) State.reset = .next t ∧ t.vTlin = true) ∧
    (∃ t, step (given State.reset 0x1341C80000#40) = .next t ∧ t.vTlin = true) ∧
    ready.vTlin = true ∧ (given ready 0x0100000000#40).inputs = .command 0x0100000000#40 :: [] ∧
    ({ ready with inputs := [.resetPin] } : State).inputs = .resetPin :: [] :=
  ⟨rfl, rfl, ⟨_, rfl, rfl⟩, ⟨_, rfl, rfl⟩, rfl, rfl, rfl⟩
theorem witness_LdcalStoresOneByte : ready.cal.wf ∧ ready.err = 0#4 ∧ 0x31 ≤ (0x31#8 : Byte).toNat ∧
    (0x45#8 : Byte).toNat ≤ 0x45 := by decide
theorem witness_LdrawtLoadsTheCount : ready.err = 0#4 := by decide
theorem witness_LdrawpLoadsTheCount : State.reset.err = 0#4 := by decide
theorem witness_LdtStoresThePattern : ready.err = 0#4 ∧
    ∃ t, exec (.ldt 0xFFFFFFFF#32) ready = .next t := ⟨rfl, _, rfl⟩
theorem witness_DecodeWritesTheExactCoefficients :
    (loaded blockBd).err = 0#4 ∧ (loaded blockBd).calw = 0x1FFFFF#21 := by decide
theorem witness_DecodedCoefficientsAreZeroOrNormal :
    (loaded blockG).err = 0#4 ∧ (loaded blockG).calw = 0x1FFFFF#21 ∧
    ∃ t, exec .decode (loaded blockG) = .next t := ⟨rfl, rfl, _, rfl⟩
/-- Two memories that differ in one coefficient's byte only. -/
theorem witness_CoefficientsDependOnTheirOwnBytes :
    let s := loaded blockG
    let t := loaded (blockG.set 11 0x00#8)
    s.err = 0#4 ∧ t.err = 0#4 ∧ s.calw = 0x1FFFFF#21 ∧ t.calw = 0x1FFFFF#21 ∧
    s.cal.read 0x3C ≠ t.cal.read 0x3C ∧ s.cal.read 0x3D = t.cal.read 0x3D ∧
    s.cal.read 0x45 = t.cal.read 0x45 := by decide
theorem witness_ComptComputesTheTemperature :
    ready.err = 0#4 ∧ ready.vCoef = true ∧ ready.vRawt = true := by decide
theorem witness_ComppComputesThePressure :
    ready.err = 0#4 ∧ ready.vCoef = true ∧ ready.vRawp = true ∧ ready.vTlin = true := by decide
/-- Two states that differ in the raw pressure. -/
theorem witness_TemperatureDependsOnItsInputsOnly :
    let t := { ready with rawp := 5#32 }
    ready ≠ t ∧ ready.rawt = t.rawt ∧ ready.coef = t.coef ∧
    (∃ u, exec .compt ready = .next u) ∧ ∃ u, exec .compt t = .next u := by
  refine ⟨by decide, rfl, rfl, ⟨_, rfl⟩, _, rfl⟩
/-- Two states that differ in the raw temperature. -/
theorem witness_PressureDependsOnItsInputsOnly :
    let t := { ready with rawt := 5#32 }
    ready ≠ t ∧ ready.rawp = t.rawp ∧ ready.tlin = t.tlin ∧ ready.coef = t.coef ∧
    (∃ u, exec .compp ready = .next u) ∧ ∃ u, exec .compp t = .next u := by
  refine ⟨by decide, rfl, rfl, rfl, ⟨_, rfl⟩, _, rfl⟩
theorem witness_ComputedTemperatureIsBounded :
    ready.Inv ∧ ready.err = 0#4 ∧ ready.vCoef = true ∧ ready.vRawt = true :=
  ⟨ready_meets_invariant, by decide⟩
theorem witness_PressureOfABoundedTemperatureIsFinite :
    ready.Inv ∧ ready.err = 0#4 ∧ ready.vCoef = true ∧ ready.vRawp = true ∧ ready.vTlin = true ∧
    BoundedBy (fval ready.tlin) 1152 :=
  ⟨ready_meets_invariant, rfl, rfl, rfl, rfl, false, 0xC88034 * 2 ^ 130, by decide, by decide⟩
theorem witness_PatternsRoundTrip : fval 0x80000001#32 ≠ .nan ∧ fval 0x7F7FFFFF#32 ≠ .nan := by decide
theorem witness_ComputedValuesSurviveStoring :
    fadd (fval 0x3F800000#32) (fval 0x33800000#32) ≠ .nan := by decide
/-- Half a unit lies as near to 0 as to 1. -/
theorem witness_RoundingIsToNearestEven : 0 < 2 ∧ roundMag 1 2 = 0 ∧
    |((0 : Int) * 2 - 1)| = |((1 : Int) * 2 - 1)| ∧ (1 : Int) ≠ 0 := by decide
/-- The largest finite value, and the least magnitude that overflows. -/
theorem witness_OverflowThresholdIsExact :
    roundToF32 false ((2 ^ 25 - 1) * 2 ^ 103 * 2 ^ 149 - 1) 1 = .fin false ((2 ^ 24 - 1) * 2 ^ 104 * 2 ^ 149) ∧
    roundToF32 false ((2 ^ 25 - 1) * 2 ^ 103 * 2 ^ 149) 1 = .inf false := by decide
/-- Half a unit underflows to the zero of its sign, and a bit more does not (R121, second and third points). -/
theorem witness_ZerosAndInfinitiesAsStated : fval 0x00000001#32 = .fin false 1 ∧ (1 : Nat) ≠ 0 ∧
    fmul (.fin true (2 ^ 74)) (.fin false (2 ^ 74)) = .fin true 0 ∧
    fmul (.fin true (2 ^ 74 + 1)) (.fin false (2 ^ 74)) = .fin true 1 ∧
    fmul (.fin true (2 ^ 213)) (.fin true (2 ^ 213)) = .inf false := by
  decide
/-- `1 - 2`, and a sum of two nonzero values (R121). -/
theorem witness_FiniteResultsAreExactAndRoundedOnce :
    ((2 ^ 149 : Nat) : Int) - ((2 ^ 150 : Nat) : Int) ≠ 0 ∧
    fsub (fval 0x3F800000#32) (fval 0x40000000#32) = .fin true (2 ^ 149) ∧
    fadd (fval 0x3F800000#32) (fval 0x40000000#32) = .fin false (3 * 2 ^ 149) := by decide
theorem witness_CvtIsExactBelowTwoToThe24 : (16777215 : Int).natAbs < 2 ^ 24 ∧ (-49152 : Int).natAbs < 2 ^ 24 := by
  decide
/-- The first and the last selector of each range, in a state where each has its condition. -/
theorem witness_RdReturnsTheSelectedItem :
    ready.err = 0#4 ∧ ready.vCoef = true ∧ ready.vTlin = true ∧ ready.vPress = true ∧ ready.vRawt = true ∧
    ready.vRawp = true ∧ (0x00#8 : Byte).toNat < 14 ∧ (0x0D#8 : Byte).toNat < 14 ∧
    ready.calw.getLsbD ((0x31#8 : Byte).toNat - 0x31) = true ∧
    ready.calw.getLsbD ((0x45#8 : Byte).toNat - 0x31) = true := by decide
theorem witness_RdChangesNoState : (∃ t, exec (.rd 0x11#8) ready = .next t ∧ t.err = 0#4) ∧
    ∃ t, exec (.rd 0x11#8) State.reset = .next t ∧ t.err ≠ 0#4 := ⟨⟨_, rfl, rfl⟩, _, rfl, by decide⟩
theorem witness_StatusAndCalwViews : ready.err = 0#4 := by decide
theorem witness_RstClearsEverything : legalSel 0x0D#8 = true ∧ legalSel 0x13#8 = true ∧
    legalSel 0x31#8 = true := by decide
theorem witness_ResetStateIsAsStated : legalSel 0x00#8 = true ∧ legalSel 0x45#8 = true := by decide
theorem witness_OnlyLoadsAndViewsSucceedAfterReset : State.reset.err = 0#4 ∧ State.reset.calw = 0#21 ∧
    State.reset.flags = [false, false, false, false, false] ∧ Instr.wf (.rd 0x20#8) = true := by decide
theorem witness_MemReadAfterMemWrite : ready.cal.wf ∧ 0x31 ≤ (0x31#8 : Byte).toNat ∧
    (0x45#8 : Byte).toNat ≤ 0x45 ∧ (0x31#8 : Byte) ≠ 0x45#8 := by decide
theorem witness_WritingAByteTwiceIsWritingItOnce : ready.cal.wf := by decide
theorem witness_MemoriesThatReadAlikeAreEqual : Memory.wf (calOf blockG) := by decide
theorem witness_EachRegisterHasItsWriters : (∃ t, exec (.ldrawt 1#8 2#8 3#8) ready = .next t ∧
    t.rawt ≠ ready.rawt) ∧ ∃ t, exec .decode (loaded blockG) = .next t ∧ t.vCoef ≠ (loaded blockG).vCoef :=
  ⟨⟨_, rfl, by decide⟩, _, rfl, by decide⟩
theorem witness_OnlyResetClearsFlagsAndMask : Instr.compp ≠ .rst ∧ ready.vPress = true ∧
    ∃ t, exec .compp ready = .next t := ⟨by decide, rfl, _, rfl⟩
theorem witness_StepKeepsTheInvariant : ready.Inv ∧ ∃ t, step ready = .next t :=
  ⟨ready_meets_invariant, _, rfl⟩
/-- Two reset states with different contents in registers and bytes that hold no value. -/
theorem witness_UnwrittenContentsAreNeverObserved :
    let t := { State.reset with rawt := 5#32, cal := [(0x31, 7#8)], coef := coefsG, tlin := 1#32 }
    State.reset ≠ t ∧ State.reset.cal.wf ∧ t.cal.wf ∧ SameButUnwritten State.reset t ∧
    ∃ u, step t = .next u := by
  refine ⟨by decide, by decide, by decide, ?_, _, rfl⟩
  constructor <;> simp [State.reset]

end Sys2Proof.Tests
end

/-! Proofs about the state (`10_state.md`): what a command can do, the invariant, what no command observes,
the views, the memory and the reset state. -/

namespace Sys2Proof.Machine

/-! ### What a command can do -/

/-- Everything a command can do to a state, with the condition under which it does it (R160, R165): `rst`
always completes, any command can be absorbed or fault, and each completes in its own way only. -/
inductive Effect (s : State) : Instr → State → Prop
  | absorbed {i : Instr} (he : s.err ≠ 0#4) : Effect s i (s.respond false (codeData s.err))
  | raised {i : Instr} (f : FaultCause) (he : s.err = 0#4) :
      Effect s i (State.respond { s with err := f.code } false (codeData f.code))
  | rst : Effect s .rst (s.resetBlock.respond true 0#32)
  | ldcal {a b : Byte} (he : s.err = 0#4) (ha : legalCalAddr a = true) :
      Effect s (.ldcal a b) ((s.memWrite a b).respond true 0#32)
  | ldrawt {x l m : Byte} (he : s.err = 0#4) :
      Effect s (.ldrawt x l m) ((s.writeRawt (raw24 x l m)).respond true 0#32)
  | ldrawp {x l m : Byte} (he : s.err = 0#4) :
      Effect s (.ldrawp x l m) ((s.writeRawp (raw24 x l m)).respond true 0#32)
  | ldt {u : Word} (he : s.err = 0#4) : Effect s (.ldt u) ((s.writeTlin u).respond true 0#32)
  | decode (he : s.err = 0#4) (hfull : s.calw = 0x1FFFFF#21) :
      Effect s .decode ((s.writeCoef (decodeCoefs Config.calLayout s.calByte)).respond true 0#32)
  | compt (he : s.err = 0#4) (hcoef : s.vCoef = true) (hrawt : s.vRawt = true) :
      Effect s .compt
        (((s.afterDraw s.temperature).writeTlin (s.computedBits s.temperature)).respond true 0#32)
  | compp (he : s.err = 0#4) (hcoef : s.vCoef = true) (hrawp : s.vRawp = true) (htlin : s.vTlin = true) :
      Effect s .compp
        (((s.afterDraw s.pressure).writePress (s.computedBits s.pressure)).respond true 0#32)
  | rd {sel : Byte} {item : ReadItem} {data : Word} (he : s.err = 0#4)
      (hitem : readItem sel = some item) (hdata : s.readData item = some data) :
      Effect s (.rd sel) (s.respond true data)

theorem eq_of_complete {d : Word} {s t : State} (h : complete d s = .next t) : t = s.respond true d :=
  (Host.Outcome.next.inj h).symm

theorem eq_of_raise {f : FaultCause} {s t : State} (h : raise f s = .next t) :
    t = State.respond { s with err := f.code } false (codeData f.code) :=
  (Host.Outcome.next.inj h).symm

theorem Effect.of_raise {f : FaultCause} {i : Instr} {s t : State} (he : s.err = 0#4)
    (h : raise f s = .next t) : Effect s i t :=
  eq_of_raise h ▸ .raised f he

/-- A command behind the prologue of R165 is absorbed or does what it does in the unfaulted state. -/
theorem Effect.of_unlessFaulted {i : Instr} {s t : State} {run : Result}
    (h : unlessFaulted s run = .next t) (hrun : s.err = 0#4 → run = .next t → Effect s i t) :
    Effect s i t := by
  obtain ⟨he, rfl⟩ | ⟨he, hr⟩ := unlessFaulted_next h
  · exact .absorbed he
  · exact hrun he hr

/-- The inversion of `exec`: whatever a command gives is one of the effects above. -/
theorem effect_of_exec {i : Instr} {s t : State} (h : exec i s = .next t) : Effect s i t := by
  cases i with
  | rst => exact eq_of_complete h ▸ .rst
  | ldcal a b =>
    refine .of_unlessFaulted h fun he hr => ?_
    split at hr
    · exact eq_of_complete hr ▸ .ldcal he ‹_›
    · exact .of_raise he hr
  | ldrawt x l m => exact .of_unlessFaulted h fun he hr => eq_of_complete hr ▸ .ldrawt he
  | ldrawp x l m => exact .of_unlessFaulted h fun he hr => eq_of_complete hr ▸ .ldrawp he
  | ldt u => exact .of_unlessFaulted h fun he hr => eq_of_complete hr ▸ .ldt he
  | decode =>
    refine .of_unlessFaulted h fun he hr => ?_
    split at hr
    · exact eq_of_complete hr ▸ .decode he ((calFull_iff s).mp ‹_›)
    · exact .of_raise he hr
  | compt =>
    refine .of_unlessFaulted h fun he hr => ?_
    split at hr
    · rename_i hv
      obtain ⟨hcoef, hrawt⟩ := Bool.and_eq_true_iff.mp hv
      exact eq_of_complete hr ▸ .compt he hcoef hrawt
    · exact .of_raise he hr
  | compp =>
    refine .of_unlessFaulted h fun he hr => ?_
    split at hr
    · rename_i hv
      simp only [Bool.and_eq_true] at hv
      obtain ⟨⟨hcoef, hrawp⟩, htlin⟩ := hv
      exact eq_of_complete hr ▸ .compp he hcoef hrawp htlin
    · exact .of_raise he hr
  | rd sel =>
    refine .of_unlessFaulted h fun he hr => ?_
    split at hr
    · exact .of_raise he hr
    · split at hr
      · exact .of_raise he hr
      · exact eq_of_complete hr ▸ .rd he ‹_› ‹_›

/-- An illegal word is absorbed or raises its fault, as a command may be. -/
theorem effect_of_execIllegal {why : IllegalWord} {i : Instr} {s t : State}
    (h : execIllegal why s = .next t) : Effect s i t :=
  .of_unlessFaulted h fun he hr => .of_raise he hr

/-- A command word has the effect of some command. -/
theorem effect_of_runWord {w : CommandWord} {s t : State} (h : runWord w s = .next t) :
    ∃ i, Effect s i t := by
  unfold runWord at h
  split at h
  · exact ⟨_, effect_of_exec h⟩
  · exact ⟨.rst, effect_of_execIllegal h⟩

/-- With nothing presented the block waits (R200). -/
theorem step_of_nil {s : State} (h : s.inputs = []) : step s = .next s := by
  rw [step, takeInput_none.mpr h, runInput]

/-- On the `rst` input the block resets (R190). -/
theorem step_of_resetPin {s : State} {rest : List HostInput} (h : s.inputs = .resetPin :: rest) :
    step s = .next (State.resetBlock { s with inputs := rest }) := by
  rw [step, takeInput_cons h, runInput]

/-- A presented word is taken and executed (R52, R165). -/
theorem step_of_command {s : State} {w : CommandWord} {rest : List HostInput}
    (h : s.inputs = .command w :: rest) : step s = runWord w { s with inputs := rest } := by
  rw [step, takeInput_cons h, runInput]

/-! ### Who writes what (R10), and what is never cleared (R12, R17) -/

/-- Settles O51: each effect of a command writes the registers of R10 for that command and no others. -/
theorem eachRegisterHasItsWriters : Obligations.EachRegisterHasItsWriters := by
  intro i s t h
  cases effect_of_exec h with
  | absorbed he => simp
  | raised f he => simp [he]
  | _ => simp

/-- Writing a byte clears no bit of the mask. -/
theorem markWritten_keeps {k : BitVec 21} (o : Nat) {i : Nat} (hi : i < 21) (h : k.getLsbD i = true) :
    (markWritten k o).getLsbD i = true := by
  rw [getLsbD_markWritten _ _ _ hi, h, Bool.true_or]

/-- Every bit of the full mask of R12 is 1. -/
theorem getLsbD_fullMask : ∀ o < 21, (0x1FFFFF#21).getLsbD o = true := by decide

/-- Settles O52: every effect but `rst`'s keeps each flag or sets it, and `memWrite` only sets a bit. -/
theorem onlyResetClearsFlagsAndMask : Obligations.OnlyResetClearsFlagsAndMask := by
  intro i s t hi h
  cases effect_of_exec h with
  | rst => exact absurd rfl hi
  | ldcal he ha => exact ⟨id, id, id, id, id, fun o ho => markWritten_keeps _ ho⟩
  | _ => simp +contextual

/-! ### What `DECODE` writes is legal (R112, R114) -/

/-- The decoder's rounding is exact on integers of at most 24 bits, for every exponent near those of R96. -/
theorem fval_scaled {n k : Int} (hn : n.natAbs < 2 ^ 24) (hlo : -100 ≤ k) (hhi : k ≤ 149) :
    fval (scaled n k) = exactScaled n k := by
  have hrep (e : Nat) : Representable (n.natAbs * 2 ^ e) := (Representable.of_lt hn).mul_two_pow e
  have hlt {e : Nat} (he : e ≤ 249) : n.natAbs * 2 ^ e < overflowMag := by
    calc n.natAbs * 2 ^ e ≤ n.natAbs * 2 ^ 249 := Nat.mul_le_mul_left _ (Nat.pow_le_pow_right two_pos he)
      _ < 2 ^ 24 * 2 ^ 249 := Nat.mul_lt_mul_of_pos_right hn (Nat.two_pow_pos 249)
      _ ≤ overflowMag := by norm_num [overflowMag]
  have he : (149 - k).toNat ≤ 249 := by omega
  have hcvt : cvt n = .fin (decide (n < 0)) (n.natAbs * 2 ^ 149) :=
    roundToF32_one _ (hrep 149) (hlt (by decide))
  have hscale : scale (cvt n) k = exactScaled n k := by
    rw [hcvt]
    simp only [scale, exactScaled]
    split
    · rw [show 149 = (149 - k).toNat + k.toNat by omega, pow_add, ← Nat.mul_assoc,
        roundToF32_exact _ (Nat.two_pow_pos _) (hrep _) (hlt he)]
    · rw [Nat.mul_assoc, ← pow_add, show 149 + (-k).toNat = (149 - k).toNat by omega,
        roundToF32_one _ (hrep _) (hlt he)]
  have hfits : Fits (exactScaled n k) := ⟨hrep _, hlt he⟩
  simp only [scaled, fpfmt_fbits, fpfmt_scale, fpfmt_cvt, hscale]
  exact fval_fbits hfits (by simp [exactScaled]) _

theorem coefPattern_scaled {i : Nat} {n k lo hi : Int} (hn : lo ≤ n ∧ n ≤ hi) (hi14 : i < 14)
    (hlo : coefMin i = lo) (hhi : coefMax i = hi) (hk : coefExp i = k) : CoefPattern i (scaled n k) := by
  have hrange : ∀ i < 14, -2 ^ 24 < coefMin i ∧ coefMax i < 2 ^ 24 ∧ -100 ≤ coefExp i ∧ coefExp i ≤ 149 := by
    decide
  obtain ⟨hmin, hmax, hk1, hk2⟩ := hrange i hi14
  subst hlo hhi hk
  exact ⟨n, hn.1, hn.2, fval_scaled (by omega) hk1 hk2⟩

/-- The pattern 0x00000000 is one that every coefficient can hold. -/
theorem coefPattern_zero {i : Nat} (hi : i < 14) : CoefPattern i 0#32 := by
  have hrange : ∀ i < 14, coefMin i ≤ 0 ∧ 0 ≤ coefMax i := by decide
  obtain ⟨hlo, hhi⟩ := hrange i hi
  have hzero : fval 0#32 = .fin false 0 := by decide
  exact ⟨0, hlo, hhi, by simp [hzero, exactScaled]⟩

theorem stored_u16_range (b : Nat → Byte) (o : Nat) : 0 ≤ stored b .u16 o ∧ stored b .u16 o ≤ 65535 := by
  simp only [stored, u16le, u8]
  omega

theorem stored_s16_range (b : Nat → Byte) (o : Nat) :
    -32768 ≤ stored b .s16 o ∧ stored b .s16 o ≤ 32767 := by
  simp only [stored, s16le, u16le, u8]
  omega

theorem stored_s8_range (b : Nat → Byte) (o : Nat) : -128 ≤ stored b .s8 o ∧ stored b .s8 o ≤ 127 := by
  simp only [stored, s8, u8]
  omega

theorem stored_u16_bias_range (b : Nat → Byte) (o : Nat) :
    -16384 ≤ stored b .u16 o - Config.bias ∧ stored b .u16 o - Config.bias ≤ 49151 := by
  have := stored_u16_range b o
  simp only [Config.bias]
  omega

theorem stored_s16_bias_range (b : Nat → Byte) (o : Nat) :
    -49152 ≤ stored b .s16 o - Config.bias ∧ stored b .s16 o - Config.bias ≤ 16383 := by
  have := stored_s16_range b o
  simp only [Config.bias]
  omega

/-- A property of every `COEF[i]`, one coefficient at a time. The fields are variables, so that no check
of it computes a coefficient. -/
theorem Coefs.forall_get {P : Nat → Word → Prop} {t1 t2 t3 p1 p2 p3 p4 p5 p6 p7 p8 p9 p10 p11 : Word}
    (h0 : P 0 t1) (h1 : P 1 t2) (h2 : P 2 t3) (h3 : P 3 p1) (h4 : P 4 p2) (h5 : P 5 p3) (h6 : P 6 p4)
    (h7 : P 7 p5) (h8 : P 8 p6) (h9 : P 9 p7) (h10 : P 10 p8) (h11 : P 11 p9) (h12 : P 12 p10)
    (h13 : P 13 p11) :
    ∀ i < 14, P i (Coefs.get ⟨t1, t2, t3, p1, p2, p3, p4, p5, p6, p7, p8, p9, p10, p11⟩ i) := by
  intro i hi
  interval_cases i <;> assumption

/-- Each coefficient the decoder computes lies in its range of R114, whatever the bytes are. -/
theorem coefPattern_decodeCoefs (L : Config.CalLayout) (b : Nat → Byte) :
    ∀ i < 14, CoefPattern i ((decodeCoefs L b).get i) := by
  rw [decodeCoefs]
  exact Coefs.forall_get
    (coefPattern_scaled (stored_u16_range b _) (by decide) rfl rfl rfl)
    (coefPattern_scaled (stored_u16_range b _) (by decide) rfl rfl rfl)
    (coefPattern_scaled (stored_s8_range b _) (by decide) rfl rfl rfl)
    (coefPattern_scaled (stored_u16_bias_range b _) (by decide) rfl rfl rfl)
    (coefPattern_scaled (stored_s16_bias_range b _) (by decide) rfl rfl rfl)
    (coefPattern_scaled (stored_s8_range b _) (by decide) rfl rfl rfl)
    (coefPattern_scaled (stored_s8_range b _) (by decide) rfl rfl rfl)
    (coefPattern_scaled (stored_u16_range b _) (by decide) rfl rfl rfl)
    (coefPattern_scaled (stored_u16_range b _) (by decide) rfl rfl rfl)
    (coefPattern_scaled (stored_s8_range b _) (by decide) rfl rfl rfl)
    (coefPattern_scaled (stored_s8_range b _) (by decide) rfl rfl rfl)
    (coefPattern_scaled (stored_s16_range b _) (by decide) rfl rfl rfl)
    (coefPattern_scaled (stored_s8_range b _) (by decide) rfl rfl rfl)
    (coefPattern_scaled (stored_s8_range b _) (by decide) rfl rfl rfl)

/-! ### The invariant -/

theorem raw24_toNat_lt (x l m : Byte) : (raw24 x l m).toNat < 2 ^ 24 := by
  simp only [raw24, Laws.toNat_append_add, BitVec.toNat_ofNat]
  omega

/-- Settles O53: the memory is empty, and each coefficient is the pattern 0x00000000. -/
theorem resetMeetsTheInvariant : Obligations.ResetMeetsTheInvariant where
  calWf := Memory.wf_nil
  calRange := by simp [State.reset]
  calWritten := by simp [State.reset]
  rawtFits := by decide
  rawpFits := by decide
  errLegal := by decide
  coefLegal := by
    intro i hi
    have hblank : State.reset.coef.get i = 0#32 := by
      simp only [State.reset, Coefs.blank]
      interval_cases i <;> rfl
    rw [hblank]
    exact coefPattern_zero hi
  coefAfterCal := by simp [State.reset]
  pressAfterInputs := by simp [State.reset]

namespace State.Inv

/-! The invariant through each update of the state. It does not speak of the host's two ends of the ports
or of the count of draws. -/

variable {s : State}

theorem resetBlock (s : State) : s.resetBlock.Inv := { resetMeetsTheInvariant with }

theorem withInputs (h : s.Inv) (rest : List HostInput) : State.Inv { s with inputs := rest } := { h with }

theorem respond (h : s.Inv) (ok : Bool) (d : Word) : (s.respond ok d).Inv := { h with }

theorem afterDraw (h : s.Inv) (x : F32) : (s.afterDraw x).Inv := { h with }

theorem withFault (h : s.Inv) (f : FaultCause) : State.Inv { s with err := f.code } :=
  { h with errLegal := f.code_le }

theorem writeRawt (h : s.Inv) {v : Word} (hv : v.toNat < 2 ^ 24) : (s.writeRawt v).Inv :=
  { h with rawtFits := hv }

theorem writeRawp (h : s.Inv) {v : Word} (hv : v.toNat < 2 ^ 24) : (s.writeRawp v).Inv :=
  { h with
    rawpFits := hv
    pressAfterInputs := fun hp => let ⟨hcoef, _, htlin⟩ := h.pressAfterInputs hp; ⟨hcoef, rfl, htlin⟩ }

theorem writeCoef (h : s.Inv) {c : Coefs} (hfull : s.calw = 0x1FFFFF#21)
    (hc : ∀ i < 14, CoefPattern i (c.get i)) : (s.writeCoef c).Inv :=
  { h with
    coefLegal := hc
    coefAfterCal := fun _ => hfull
    pressAfterInputs := fun hp => let ⟨_, hrest⟩ := h.pressAfterInputs hp; ⟨rfl, hrest⟩ }

theorem writeTlin (h : s.Inv) (u : Word) : (s.writeTlin u).Inv :=
  { h with
    pressAfterInputs := fun hp => let ⟨hcoef, hrawp, _⟩ := h.pressAfterInputs hp; ⟨hcoef, hrawp, rfl⟩ }

theorem writePress (h : s.Inv) (u : Word)
    (hinputs : s.vCoef = true ∧ s.vRawp = true ∧ s.vTlin = true) : (s.writePress u).Inv :=
  { h with pressAfterInputs := fun _ => hinputs }

/-- A byte is stored within the range and with its bit of the mask, and no bit is cleared. -/
theorem memWrite (h : s.Inv) {a : Byte} (ha : legalCalAddr a = true) (v : Byte) : (s.memWrite a v).Inv := by
  have haddr := (legalCalAddr_iff a).mp ha
  have hkeep {o : Nat} (ho : o < 21) (hset : s.calw.getLsbD o = true) :
      (markWritten s.calw (calOffset a)).getLsbD o = true := markWritten_keeps _ ho hset
  refine { h with calWf := Memory.write_wf h.calWf _ _, calRange := ?_, calWritten := ?_, coefAfterCal := ?_ }
  · intro c hc
    obtain hc | rfl := Memory.mem_write hc
    · exact h.calRange c hc
    · exact haddr
  · intro c hc
    obtain hc | rfl := Memory.mem_write hc
    · have := h.calRange c hc
      exact hkeep (by omega) (h.calWritten c hc)
    · simp only [State.memWrite_calw]
      rw [getLsbD_markWritten _ _ _ (by omega)]
      simp [calOffset, Config.calBase]
  · intro hv
    have hfull : s.calw = 0x1FFFFF#21 := h.coefAfterCal hv
    refine BitVec.eq_of_getLsbD_eq fun o ho => ?_
    rw [getLsbD_fullMask o ho]
    exact hkeep ho (hfull ▸ getLsbD_fullMask o ho)

end State.Inv

/-- Every effect of a command keeps the invariant. -/
theorem Effect.keeps_inv {i : Instr} {s t : State} (e : Effect s i t) (h : s.Inv) : t.Inv := by
  cases e with
  | absorbed he => exact h.respond _ _
  | raised f he => exact (h.withFault f).respond _ _
  | rst => exact (State.Inv.resetBlock s).respond _ _
  | ldcal he ha => exact (h.memWrite ha _).respond _ _
  | ldrawt he => exact (h.writeRawt (raw24_toNat_lt _ _ _)).respond _ _
  | ldrawp he => exact (h.writeRawp (raw24_toNat_lt _ _ _)).respond _ _
  | ldt he => exact (h.writeTlin _).respond _ _
  | decode he hfull => exact (h.writeCoef hfull (coefPattern_decodeCoefs _ _)).respond _ _
  | compt he hcoef hrawt => exact ((h.afterDraw _).writeTlin _).respond _ _
  | compp he hcoef hrawp htlin => exact ((h.afterDraw _).writePress _ ⟨hcoef, hrawp, htlin⟩).respond _ _
  | rd he hitem hdata => exact h.respond _ _

/-- Settles O54: waiting and the reset pin keep the invariant, and so does each effect of a word. -/
theorem stepKeepsTheInvariant : Obligations.StepKeepsTheInvariant := by
  intro s t h ht
  obtain ⟨-, hs⟩ | ⟨rest, -, hs⟩ | ⟨w, rest, -, hs⟩ := step_cases s
  · cases hs.symm.trans ht
    exact h
  · cases hs.symm.trans ht
    exact State.Inv.resetBlock _
  · obtain ⟨i, e⟩ := effect_of_runWord (hs.symm.trans ht)
    exact e.keeps_inv (h.withInputs rest)

/-! ### The views and the reset state -/

theorem State.readData_status (s : State) : s.readData .status = some s.status := rfl

theorem State.readData_calw (s : State) : s.readData .calw = some s.calwView := rfl

/-- `RD` of an item that holds a value answers it. -/
theorem exec_rd_of_some {s : State} {sel : Byte} {item : ReadItem} {data : Word} (he : s.err = 0#4)
    (hitem : readItem sel = some item) (hdata : s.readData item = some data) :
    exec (.rd sel) s = complete data s := by
  simp only [exec, execRd, unlessFaulted_of_ok he, hitem, hdata]

/-- `RD` of an item that holds no value raises `NOT_READY` (R164). -/
theorem exec_rd_of_none {s : State} {sel : Byte} {item : ReadItem} (he : s.err = 0#4)
    (hitem : readItem sel = some item) (hdata : s.readData item = none) :
    exec (.rd sel) s = raise .notReady s := by
  simp only [exec, execRd, unlessFaulted_of_ok he, hitem, hdata]

theorem State.status_toNat (s : State) :
    s.status.toNat = (decide (s.calw = 0x1FFFFF#21)).toNat + 2 * s.vCoef.toNat + 4 * s.vRawt.toNat
      + 8 * s.vRawp.toNat + 16 * s.vTlin.toNat + 32 * s.vPress.toNat := by
  have hfull : s.calFull = decide (s.calw = 0x1FFFFF#21) := by
    rw [Bool.eq_iff_iff, calFull_iff, decide_eq_true_iff]
  simp only [State.status, Laws.toNat_append_add, BitVec.toNat_ofBool, BitVec.toNat_ofNat, hfull]
  omega

/-- Settles O44: each one-bit part of the concatenation is worth its power of two, and neither view has a
condition. -/
theorem statusAndCalwViews : Obligations.StatusAndCalwViews := by
  refine ⟨fun s => ⟨s.status_toNat, fun he => ⟨?_, s.calwView, ?_, ?_⟩⟩, by decide, rfl⟩
  · rw [exec_rd_of_some he (by decide) s.readData_status, complete_next]
  · exact BitVec.toNat_setWidth_of_le (by decide)
  · rw [exec_rd_of_some he (by decide) s.readData_calw, complete_next]

/-- The inversion of `readItem`: the rows of R150. -/
theorem readItem_cases {sel : Byte} {item : ReadItem} (h : readItem sel = some item) :
    (sel.toNat < 14 ∧ item = .coef sel.toNat) ∨ (sel = 0x10#8 ∧ item = .tlin) ∨
    (sel = 0x11#8 ∧ item = .press) ∨ (sel = 0x12#8 ∧ item = .rawt) ∨ (sel = 0x13#8 ∧ item = .rawp) ∨
    (sel = 0x20#8 ∧ item = .status) ∨ (sel = 0x21#8 ∧ item = .calw) ∨
    (legalCalAddr sel = true ∧ item = .cal sel) := by
  unfold readItem Config.ncoef at h
  split_ifs at h <;> simp_all

/-- Where nothing has been written, only the views hold a value (R22). -/
theorem State.readData_of_nothing_written {s : State} {item : ReadItem} (hcalw : s.calw = 0#21)
    (hflags : s.flags = [false, false, false, false, false]) (hs : item ≠ .status) (hc : item ≠ .calw) :
    s.readData item = none := by
  simp only [State.flags, List.cons.injEq, and_true] at hflags
  obtain ⟨hcoef, hrawt, hrawp, htlin, hpress⟩ := hflags
  cases item with
  | status => exact absurd rfl hs
  | calw => exact absurd rfl hc
  | cal a => simp [State.readData, State.memRead, hcalw]
  | _ => simp [State.readData, ifValid, *]

/-- Settles O46: every item but the two views is without a value at reset. -/
theorem resetStateIsAsStated : Obligations.ResetStateIsAsStated := by
  refine ⟨rfl, rfl, rfl, by decide, fun sel hlegal hstatus hcalw => ?_⟩
  obtain ⟨item, hitem⟩ := Option.isSome_iff_exists.mp hlegal
  have hs : item ≠ .status := by
    rintro rfl
    exact hstatus (by simpa using readItem_cases hitem)
  have hc : item ≠ .calw := by
    rintro rfl
    exact hcalw (by simpa using readItem_cases hitem)
  have hnone : State.reset.readData item = none := State.readData_of_nothing_written rfl rfl hs hc
  rw [exec_rd_of_none rfl hitem hnone, raise_next]
  rfl

/-! ### The memory's canonical form (log entry 2) -/

/-- The first address of a canonical memory reads as its byte, which is not blank. -/
theorem Memory.read_cons_ne_blank {a : Nat} {v : Byte} {m : Memory} (h : Memory.wf ((a, v) :: m)) :
    Memory.read ((a, v) :: m) a ≠ blankByte := by
  simpa [Memory.read] using (Memory.wf_cons.mp h).2.1

/-- An address that does not read as blank is not below the first one listed. -/
theorem Memory.le_of_read_ne_blank {a c : Nat} {v : Byte} {m : Memory} (h : Memory.wf ((a, v) :: m))
    (hc : Memory.read ((a, v) :: m) c ≠ blankByte) : a ≤ c := by
  by_contra hlt
  obtain ⟨hrest, -, -⟩ := Memory.wf_cons.mp h
  refine hc (Memory.read_of_lt fun x hx => ?_)
  obtain rfl | hx := List.mem_cons.mp hx
  · omega
  · have := hrest x hx
    omega

/-- Settles O50, by induction on both lists: the first addresses agree because each is the least that does
not read as blank, the bytes there agree, and below the rest both rests read as blank. -/
theorem memoriesThatReadAlikeAreEqual : Obligations.MemoriesThatReadAlikeAreEqual := by
  intro m
  induction m with
  | nil =>
    intro n _ hn hread
    cases n with
    | nil => rfl
    | cons d n => exact absurd (hread d.1).symm (Memory.read_cons_ne_blank hn)
  | cons c m ih =>
    intro n hm hn hread
    cases n with
    | nil => exact absurd (hread c.1) (Memory.read_cons_ne_blank hm)
    | cons d n =>
      obtain ⟨a, v⟩ := c
      obtain ⟨b, w⟩ := d
      have hba : b ≤ a := Memory.le_of_read_ne_blank hn (hread a ▸ Memory.read_cons_ne_blank hm)
      have hab : a ≤ b := Memory.le_of_read_ne_blank hm ((hread b).symm ▸ Memory.read_cons_ne_blank hn)
      obtain rfl : a = b := le_antisymm hab hba
      obtain rfl : v = w := by simpa [Memory.read] using hread a
      obtain ⟨hma, -, hm'⟩ := Memory.wf_cons.mp hm
      obtain ⟨hna, -, hn'⟩ := Memory.wf_cons.mp hn
      have hrest (x : Nat) : Memory.read m x = Memory.read n x := by
        by_cases hx : x = a
        · rw [hx, Memory.read_of_lt hma, Memory.read_of_lt hna]
        · simpa [Memory.read, hx] using hread x
      rw [ih n hm' hn' hrest]

/-! ### What holds no value is never observed (R22) -/

theorem ifValid_congr {v w : Bool} {d e : Word} (hv : v = w) (hd : v = true → d = e) :
    ifValid v d = ifValid w e := by
  subst hv
  cases v with
  | false => rfl
  | true => rw [hd rfl]

/-- The decoder reads the offsets 0 to 20 only. -/
theorem decodeCoefs_congr {b c : Nat → Byte} (h : ∀ o < 21, b o = c o) :
    decodeCoefs Config.calLayout b = decodeCoefs Config.calLayout c := by
  have hstored (kind : FieldKind) {o : Nat} (ho : o < 20) : stored b kind o = stored c kind o := by
    simp only [stored, h o (by omega), h (o + 1) (by omega)]
  have hlast : stored b .s8 20 = stored c .s8 20 := by
    simp only [stored, h 20 (by omega)]
  simp only [decodeCoefs, Config.calLayout, hstored, hlast, Nat.reduceLT]

namespace SameButUnwritten

variable {s t : State}

/-! ### Two such states look alike -/

theorem calFull_eq (h : SameButUnwritten s t) : s.calFull = t.calFull := by
  simp only [State.calFull, h.calw]

theorem faulted_eq (h : SameButUnwritten s t) : s.faulted = t.faulted := by
  simp only [State.faulted, h.err]

theorem status_eq (h : SameButUnwritten s t) : s.status = t.status := by
  simp only [State.status, h.calFull_eq, h.vCoef, h.vRawt, h.vRawp, h.vTlin, h.vPress]

theorem memRead_eq (h : SameButUnwritten s t) {a : Byte} (ha : legalCalAddr a = true) :
    s.memRead a = t.memRead a := by
  have haddr := (legalCalAddr_iff a).mp ha
  simp only [State.memRead, ← h.calw]
  split
  · have hread := h.cal (calOffset a) (by simp only [calOffset, Config.calBase]; omega) ‹_›
    rw [show 0x31 + calOffset a = a.toNat by simp only [calOffset, Config.calBase]; omega] at hread
    rw [hread]
  · rfl

theorem readData_eq (h : SameButUnwritten s t) {sel : Byte} {item : ReadItem}
    (hitem : readItem sel = some item) : s.readData item = t.readData item := by
  cases item with
  | coef i => exact ifValid_congr h.vCoef fun hv => by rw [h.coef hv]
  | tlin => exact ifValid_congr h.vTlin h.tlin
  | press => exact ifValid_congr h.vPress h.press
  | rawt => exact ifValid_congr h.vRawt h.rawt
  | rawp => exact ifValid_congr h.vRawp h.rawp
  | status => simp only [State.readData_status, h.status_eq]
  | calw => simp only [State.readData_calw, State.calwView, h.calw]
  | cal a =>
    obtain ⟨ha, rfl⟩ : legalCalAddr sel = true ∧ a = sel := by simpa using readItem_cases hitem
    simp only [State.readData, h.memRead_eq ha]

/-- With the whole mask set, the decoder sees the same bytes. -/
theorem decodeCoefs_eq (h : SameButUnwritten s t) (hfull : s.calFull = true) :
    decodeCoefs Config.calLayout s.calByte = decodeCoefs Config.calLayout t.calByte := by
  refine decodeCoefs_congr fun o ho => h.cal o ho ?_
  rw [(calFull_iff s).mp hfull]
  exact getLsbD_fullMask o ho

theorem temperature_eq (h : SameButUnwritten s t) (hcoef : s.vCoef = true) (hrawt : s.vRawt = true) :
    s.temperature = t.temperature := by
  simp only [State.temperature, h.coef hcoef, h.rawt hrawt]

theorem pressure_eq (h : SameButUnwritten s t) (hcoef : s.vCoef = true) (hrawp : s.vRawp = true)
    (htlin : s.vTlin = true) : s.pressure = t.pressure := by
  simp only [State.pressure, h.coef hcoef, h.rawp hrawp, h.tlin htlin]

theorem computedBits_eq (h : SameButUnwritten s t) (x : F32) : s.computedBits x = t.computedBits x := by
  simp only [State.computedBits, h.nanDraws]

/-! ### The same update keeps them so -/

theorem withInputs (h : SameButUnwritten s t) (rest : List HostInput) :
    SameButUnwritten { s with inputs := rest } { t with inputs := rest } :=
  { h with inputs := rfl }

theorem withFault (h : SameButUnwritten s t) (f : FaultCause) :
    SameButUnwritten { s with err := f.code } { t with err := f.code } :=
  { h with err := rfl }

theorem respond (h : SameButUnwritten s t) (ok : Bool) (d : Word) :
    SameButUnwritten (s.respond ok d) (t.respond ok d) :=
  { h with responses := by simp only [State.respond_responses, h.responses] }

theorem afterDraw (h : SameButUnwritten s t) (x : F32) :
    SameButUnwritten (s.afterDraw x) (t.afterDraw x) :=
  { h with nanDraws := by simp only [State.afterDraw_nanDraws, h.nanDraws] }

theorem writeRawt (h : SameButUnwritten s t) (v : Word) :
    SameButUnwritten (s.writeRawt v) (t.writeRawt v) :=
  { h with vRawt := rfl, rawt := fun _ => rfl }

theorem writeRawp (h : SameButUnwritten s t) (v : Word) :
    SameButUnwritten (s.writeRawp v) (t.writeRawp v) :=
  { h with vRawp := rfl, rawp := fun _ => rfl }

theorem writeCoef (h : SameButUnwritten s t) (c : Coefs) :
    SameButUnwritten (s.writeCoef c) (t.writeCoef c) :=
  { h with vCoef := rfl, coef := fun _ => rfl }

theorem writeTlin (h : SameButUnwritten s t) (u : Word) :
    SameButUnwritten (s.writeTlin u) (t.writeTlin u) :=
  { h with vTlin := rfl, tlin := fun _ => rfl }

theorem writePress (h : SameButUnwritten s t) (u : Word) :
    SameButUnwritten (s.writePress u) (t.writePress u) :=
  { h with vPress := rfl, press := fun _ => rfl }

/-- Reset leaves nothing of the block to differ in. -/
theorem resetBlock (h : SameButUnwritten s t) : SameButUnwritten s.resetBlock t.resetBlock := by
  have heq : s.resetBlock = t.resetBlock := by
    simp only [State.resetBlock, h.inputs, h.responses, h.nanDraws]
  rw [heq]
  constructor <;> intros <;> rfl

/-- A byte that the mask vouches for after the store is the one stored, or the mask vouched for it before. -/
theorem memWrite (h : SameButUnwritten s t) (hs : s.cal.wf) (ht : t.cal.wf) {a : Byte}
    (ha : legalCalAddr a = true) (v : Byte) : SameButUnwritten (s.memWrite a v) (t.memWrite a v) := by
  refine { h with calw := by simp only [State.memWrite_calw, h.calw], cal := fun o ho hset => ?_ }
  have haddr := (legalCalAddr_iff a).mp ha
  simp only [State.memWrite_cal, Memory.read_write hs, Memory.read_write ht]
  split
  · rfl
  · have hne : o ≠ calOffset a := by
      simp only [calOffset, Config.calBase]
      omega
    rw [State.memWrite_calw, getLsbD_markWritten _ _ _ ho, decide_eq_false hne, Bool.or_false] at hset
    exact h.cal o ho hset

end SameButUnwritten

/-- Whatever states two commands end in, they are the same but for what holds no value. -/
def EndAlike (q r : Result) : Prop :=
  ∀ s' t' : State, q = .next s' → r = .next t' → SameButUnwritten s' t'

namespace EndAlike

variable {s t : State}

theorem next (h : SameButUnwritten s t) : EndAlike (.next s) (.next t) := by
  intro s' t' hs ht
  cases hs
  cases ht
  exact h

theorem complete (h : SameButUnwritten s t) (d : Word) : EndAlike (complete d s) (complete d t) :=
  next (h.respond _ _)

theorem raise (h : SameButUnwritten s t) (f : FaultCause) : EndAlike (raise f s) (raise f t) :=
  next ((h.withFault f).respond _ _)

/-- The prologue of R165 takes the same way in both states. -/
theorem unlessFaulted (h : SameButUnwritten s t) {q r : Result} (hqr : EndAlike q r) :
    EndAlike (unlessFaulted s q) (unlessFaulted t r) := by
  intro s' t' hs ht
  obtain ⟨hes, rfl⟩ | ⟨hes, hq⟩ := unlessFaulted_next hs <;>
    obtain ⟨het, rfl⟩ | ⟨het, hr⟩ := unlessFaulted_next ht
  · rw [h.err]
    exact h.respond _ _
  · exact absurd (h.err.trans het) hes
  · exact absurd (h.err.symm.trans hes) het
  · exact hqr s' t' hq hr

/-- Every command tests the same conditions in both states, and reads only what they vouch for. -/
theorem exec (h : SameButUnwritten s t) (hs : s.cal.wf) (ht : t.cal.wf) (i : Instr) :
    EndAlike (exec i s) (exec i t) := by
  cases i with
  | rst => exact complete h.resetBlock _
  | ldcal a b =>
    refine unlessFaulted h ?_
    split
    · exact complete (h.memWrite hs ht ‹_› b) _
    · exact raise h _
  | ldrawt x l m => exact unlessFaulted h (complete (h.writeRawt _) _)
  | ldrawp x l m => exact unlessFaulted h (complete (h.writeRawp _) _)
  | ldt u => exact unlessFaulted h (complete (h.writeTlin u) _)
  | decode =>
    refine unlessFaulted h ?_
    rw [← h.calFull_eq]
    split
    · rw [h.decodeCoefs_eq ‹_›]
      exact complete (h.writeCoef _) _
    · exact raise h _
  | compt =>
    refine unlessFaulted h ?_
    rw [← h.vCoef, ← h.vRawt]
    split
    · rename_i hv
      obtain ⟨hcoef, hrawt⟩ := Bool.and_eq_true_iff.mp hv
      rw [h.temperature_eq hcoef hrawt, h.computedBits_eq]
      exact complete ((h.afterDraw _).writeTlin _) _
    · exact raise h _
  | compp =>
    refine unlessFaulted h ?_
    rw [← h.vCoef, ← h.vRawp, ← h.vTlin]
    split
    · rename_i hv
      simp only [Bool.and_eq_true] at hv
      obtain ⟨⟨hcoef, hrawp⟩, htlin⟩ := hv
      rw [h.pressure_eq hcoef hrawp htlin, h.computedBits_eq]
      exact complete ((h.afterDraw _).writePress _) _
    · exact raise h _
  | rd sel =>
    refine unlessFaulted h ?_
    split
    · exact raise h _
    · rw [← h.readData_eq ‹_›]
      split
      · exact raise h _
      · exact complete h _

theorem runWord (h : SameButUnwritten s t) (hs : s.cal.wf) (ht : t.cal.wf) (w : CommandWord) :
    EndAlike (runWord w s) (runWord w t) := by
  unfold Machine.runWord
  split
  · exact exec h hs ht _
  · exact unlessFaulted h (raise h _)

/-- The host presents the same thing in both states. -/
theorem step (h : SameButUnwritten s t) (hs : s.cal.wf) (ht : t.cal.wf) : EndAlike (step s) (step t) := by
  cases hin : s.inputs with
  | nil =>
    rw [step_of_nil hin, step_of_nil (h.inputs ▸ hin)]
    exact next h
  | cons i rest =>
    cases i with
    | resetPin =>
      rw [step_of_resetPin hin, step_of_resetPin (h.inputs ▸ hin)]
      exact next (h.withInputs rest).resetBlock
    | command w =>
      rw [step_of_command hin, step_of_command (h.inputs ▸ hin)]
      exact runWord (h.withInputs rest) hs ht w

end EndAlike

/-- Settles O55: the two steps take the same branches and read only contents that are vouched for. -/
theorem unwrittenContentsAreNeverObserved : Obligations.UnwrittenContentsAreNeverObserved :=
  fun _ _ s' t' hs ht h => EndAlike.step h hs ht s' t'

end Sys2Proof.Machine

/-! Proofs about the calibration memory and the command stream (`20_memory.md`): reading a byte after a
write, writing it twice, and the word a step takes. -/

namespace Sys2Proof.Machine

/-! ### A byte of the memory, read after a write (R44, R47) -/

/-- The offset of a legal address is a bit of `CALW`. -/
theorem calOffset_lt {a : Byte} (ha : a.toNat ≤ 0x45) : calOffset a < 21 := by
  simp only [calOffset, Config.calBase]
  omega

/-- Two addresses from the base upwards share no bit of `CALW`. -/
theorem calOffset_ne {a c : Byte} (ha : 0x31 ≤ a.toNat) (hc : 0x31 ≤ c.toNat) (hne : c ≠ a) :
    calOffset c ≠ calOffset a := by
  have hnat : c.toNat ≠ a.toNat := mt BitVec.eq_of_toNat_eq hne
  simp only [calOffset, Config.calBase]
  omega

theorem State.memRead_eq_none {s : State} {a : Byte} :
    s.memRead a = none ↔ s.calw.getLsbD (calOffset a) = false := by
  simp [State.memRead]

/-- The byte written is read back, and its `CALW` bit vouches for it. -/
theorem State.memRead_memWrite_same {s : State} (hs : s.cal.wf) {a : Byte} (ha : a.toNat ≤ 0x45)
    (v : Byte) : (s.memWrite a v).memRead a = some v := by
  have hbit : (s.memWrite a v).calw.getLsbD (calOffset a) = true := by
    rw [State.memWrite_calw, getLsbD_markWritten _ _ _ (calOffset_lt ha), decide_eq_true rfl, Bool.or_true]
  rw [State.memRead_of_written hbit, State.memWrite_cal, Memory.read_write hs, if_pos rfl]

/-- A write to one address leaves both the byte and the `CALW` bit of another as they were. -/
theorem State.memRead_memWrite_other {s : State} (hs : s.cal.wf) {a c : Byte} (ha : 0x31 ≤ a.toNat)
    (hc : 0x31 ≤ c.toNat) (hc' : c.toNat ≤ 0x45) (hne : c ≠ a) (v : Byte) :
    (s.memWrite a v).memRead c = s.memRead c := by
  have hbit : (s.memWrite a v).calw.getLsbD (calOffset c) = s.calw.getLsbD (calOffset c) := by
    rw [State.memWrite_calw, getLsbD_markWritten _ _ _ (calOffset_lt hc'),
      decide_eq_false (calOffset_ne ha hc hne), Bool.or_false]
  have hbyte : (s.memWrite a v).cal.read c.toNat = s.cal.read c.toNat := by
    rw [State.memWrite_cal, Memory.read_write hs, if_neg (mt BitVec.eq_of_toNat_eq hne)]
  rw [State.memRead, State.memRead, hbit, hbyte]

/-- Settles O48: the written address, every other address, and the address whose `CALW` bit is 0. -/
theorem memReadAfterMemWrite : Obligations.MemReadAfterMemWrite :=
  fun _ _ v hs ha ha' => ⟨State.memRead_memWrite_same hs ha' v,
    fun _ hc hc' hne => State.memRead_memWrite_other hs ha hc hc' hne v, State.memRead_eq_none⟩

/-! ### Writing the same byte twice (R47) -/

/-- The two memories are canonical and read alike, so they are the same data. -/
theorem Memory.write_write_same {m : Memory} (h : m.wf) (a : Nat) (v : Byte) :
    (m.write a v).write a v = m.write a v := by
  have hw : (m.write a v).wf := Memory.write_wf h a v
  refine memoriesThatReadAlikeAreEqual _ _ (Memory.write_wf hw a v) hw fun c => ?_
  rw [Memory.read_write hw]
  split
  · rw [Memory.read_write h, if_pos ‹_›]
  · rfl

theorem markWritten_markWritten_same (k : BitVec 21) (o : Nat) :
    markWritten (markWritten k o) o = markWritten k o := by
  simp only [markWritten, BitVec.or_assoc, BitVec.or_self]

/-- Settles O49: the second write changes neither the memory nor the mask, and `memWrite` nothing else. -/
theorem writingAByteTwiceIsWritingItOnce : Obligations.WritingAByteTwiceIsWritingItOnce := by
  intro s a v hs
  have hcal : (s.memWrite a v).cal.write a.toNat v = (s.memWrite a v).cal :=
    Memory.write_write_same hs a.toNat v
  have hcalw : markWritten (s.memWrite a v).calw (calOffset a) = (s.memWrite a v).calw :=
    markWritten_markWritten_same s.calw (calOffset a)
  rw [State.memWrite, hcal, hcalw]

/-! ### The word a step takes (R52, R165) -/

/-- A legal word is the command it decodes to. -/
theorem runWord_of_decode {w : CommandWord} {i : Instr} (h : decode w = .ok i) (s : State) :
    runWord w s = exec i s := by
  simp only [runWord, h]

/-- Settles O7: the step takes the word from the host's list, and the word is its command. -/
theorem stepExecutesTheDecodedCommand : Obligations.StepExecutesTheDecodedCommand :=
  fun _ _ _ _ hin hdec => (step_of_command hin).trans (runWord_of_decode hdec _)

end Sys2Proof.Machine

/-! Proofs about the encoding (`30_encoding.md`): the fields of a word, decoding against encoding, the words
of R65, the pseudo-instructions, and the response to a word. -/

namespace Sys2Proof.Machine

/-! ### The fields of a word, as numbers (R60, R62, R63) -/

theorem extractLsb'_toNat_eq_div_mod {m : Nat} (x : BitVec m) (lo n : Nat) :
    (x.extractLsb' lo n).toNat = x.toNat / 2 ^ lo % 2 ^ n := by
  rw [BitVec.extractLsb'_toNat, Nat.shiftRight_eq_div_pow]

theorem opField_toNat (w : CommandWord) : (opField w).toNat = w.toNat / 2 ^ 32 := by
  rw [opField, extractLsb'_toNat_eq_div_mod]
  omega

theorem dataField_toNat (w : CommandWord) : (dataField w).toNat = w.toNat % 2 ^ 32 := by
  rw [dataField, extractLsb'_toNat_eq_div_mod]
  omega

/-- R60: a word is its opcode and its data. -/
theorem opField_append_dataField (w : CommandWord) : opField w ++ dataField w = w := by
  rw [← BitVec.toNat_inj, Laws.toNat_append_add, opField_toNat, dataField_toNat]
  omega

/-- A field below the opcode is a field of the data. -/
theorem extract_eq_extract_dataField (w : CommandWord) {lo n : Nat} (h : lo + n ≤ 32) :
    w.extractLsb' lo n = (dataField w).extractLsb' lo n := by
  conv_lhs => rw [← opField_append_dataField w]
  exact Laws.extract_append_low _ _ lo n h

theorem byteField_toNat (w : CommandWord) {lo : Nat} (h : lo + 8 ≤ 32) :
    (byteField w lo).toNat = (dataField w).toNat / 2 ^ lo % 256 := by
  rw [byteField, extract_eq_extract_dataField w h, extractLsb'_toNat_eq_div_mod]
  rfl

/-- R62: must-be-zero bits that reach up to the opcode leave the data below `2 ^ lo`. -/
theorem mustBeZero_iff (w : CommandWord) {lo n : Nat} (h : lo + n = 32) :
    w.extractLsb' lo n = 0#n ↔ (dataField w).toNat / 2 ^ lo = 0 := by
  rw [← BitVec.toNat_inj, extractLsb'_toNat_eq_div_mod, dataField_toNat, ← h, pow_add,
    Nat.mod_mul_right_div_self, BitVec.toNat_zero]

/-! ### The operand data of each format (R62) -/

theorem encode_toNat (i : Instr) :
    (encode i).toNat = (opcode i).toNat * 2 ^ 32 + (operandData i).toNat :=
  Laws.toNat_append_add _ _

theorem opField_encode (i : Instr) : opField (encode i) = opcode i :=
  Laws.extract_append_high _ _

theorem dataField_encode (i : Instr) : dataField (encode i) = operandData i :=
  (Laws.extract_append_low _ _ 0 32 le_rfl).trans BitVec.extractLsb'_eq_self

/-- The two parts of a word determine it. -/
theorem encode_eq_of_fields {w : CommandWord} {i : Instr} (hop : opField w = opcode i)
    (hdata : dataField w = operandData i) : encode i = w := by
  rw [encode, ← hop, ← hdata, opField_append_dataField]

theorem operandData_ldcal_toNat (a b : Byte) :
    (operandData (.ldcal a b)).toNat = a.toNat * 2 ^ 8 + b.toNat := by
  rw [operandData, Laws.toNat_append_add (0#16 ++ a) b, Laws.toNat_append_add, BitVec.toNat_ofNat]
  omega

/-- R84. The data of `LDRAWT` and `LDRAWP` is `raw24` by definition. -/
theorem raw24_toNat (x l m : Byte) :
    (raw24 x l m).toNat = m.toNat * 2 ^ 16 + l.toNat * 2 ^ 8 + x.toNat := by
  simp only [raw24, Laws.toNat_append_add, BitVec.toNat_ofNat]
  omega

theorem operandData_rd_toNat (sel : Byte) : (operandData (.rd sel)).toNat = sel.toNat := by
  rw [operandData, Laws.toNat_append_add 0#24 sel, BitVec.toNat_ofNat]
  omega

/-- Format CAL: the data of `LDCAL` by its slices. -/
theorem eq_operandData_ldcal_iff (d : Word) (a b : Byte) : d = operandData (.ldcal a b) ↔
    d.extractLsb' 16 16 = 0#16 ∧ d.extractLsb' 8 8 = a ∧ d.extractLsb' 0 8 = b := by
  simp only [← BitVec.toNat_inj, extractLsb'_toNat_eq_div_mod, operandData_ldcal_toNat, BitVec.toNat_ofNat]
  omega

/-- Format RAW: the data of `LDRAWT` and `LDRAWP` by its slices. -/
theorem eq_raw24_iff (d : Word) (x l m : Byte) : d = raw24 x l m ↔
    d.extractLsb' 24 8 = 0#8 ∧ d.extractLsb' 0 8 = x ∧ d.extractLsb' 8 8 = l ∧ d.extractLsb' 16 8 = m := by
  simp only [← BitVec.toNat_inj, extractLsb'_toNat_eq_div_mod, raw24_toNat, BitVec.toNat_ofNat]
  omega

/-- Format SEL: the data of `RD` by its slices. -/
theorem eq_operandData_rd_iff (d : Word) (sel : Byte) : d = operandData (.rd sel) ↔
    d.extractLsb' 8 24 = 0#24 ∧ d.extractLsb' 0 8 = sel := by
  simp only [← BitVec.toNat_inj, extractLsb'_toNat_eq_div_mod, operandData_rd_toNat, BitVec.toNat_ofNat]
  omega

/-! ### Decoding and encoding are inverse (R64, R70) -/

theorem requireZero_eq_ok {w : CommandWord} {lo n : Nat} {rest : Except IllegalWord Instr} {i : Instr} :
    requireZero w lo n rest = .ok i ↔ w.extractLsb' lo n = 0#n ∧ rest = .ok i := by
  unfold requireZero
  split <;> simp [*]

/-- Settles O1: the opcode selects the command's row, and the slices of its data are its operands. -/
theorem decodeOfEncodeIsTheCommand : Obligations.DecodeOfEncodeIsTheCommand := by
  intro i hwf
  have hop := opField_encode i
  have hdata := dataField_encode i
  cases i with
  | ldcal a b =>
    have haddr : legalCalAddr a = true := hwf
    obtain ⟨hz, ha, hb⟩ := (eq_operandData_ldcal_iff _ a b).mp hdata
    simp [decode, hop, opcode, requireZero_eq_ok, byteField, extract_eq_extract_dataField, hz, ha, hb, haddr]
  | ldrawt x l m =>
    obtain ⟨hz, hx, hl, hm⟩ := (eq_raw24_iff _ x l m).mp hdata
    simp [decode, hop, opcode, requireZero_eq_ok, byteField, extract_eq_extract_dataField, hz, hx, hl, hm]
  | ldrawp x l m =>
    obtain ⟨hz, hx, hl, hm⟩ := (eq_raw24_iff _ x l m).mp hdata
    simp [decode, hop, opcode, requireZero_eq_ok, byteField, extract_eq_extract_dataField, hz, hx, hl, hm]
  | ldt u => simp [decode, hop, opcode, hdata, operandData]
  | rd sel =>
    have hsel : legalSel sel = true := hwf
    obtain ⟨hz, hs⟩ := (eq_operandData_rd_iff _ sel).mp hdata
    simp [decode, hop, opcode, requireZero_eq_ok, byteField, extract_eq_extract_dataField, hz, hs, hsel]
  | _ => simp [decode, hop, opcode, requireZero_eq_ok, extract_eq_extract_dataField, hdata, operandData]

/-- One row of the decoder: where the must-be-zero bits make the data that of `j`, the word is `j`'s. -/
theorem encode_of_requireZero {w : CommandWord} {lo n : Nat} {i j : Instr}
    (h : requireZero w lo n (.ok j) = .ok i) (hop : opField w = opcode j) (hwf : j.wf = true)
    (hdata : w.extractLsb' lo n = 0#n → dataField w = operandData j) : encode i = w ∧ i.wf = true := by
  obtain ⟨hz, hi⟩ := requireZero_eq_ok.mp h
  cases hi
  exact ⟨encode_eq_of_fields hop (hdata hz), hwf⟩

theorem dataField_eq_ldcal {w : CommandWord} (hz : w.extractLsb' 16 16 = 0#16) :
    dataField w = operandData (.ldcal (byteField w 8) (byteField w 0)) := by
  simpa [eq_operandData_ldcal_iff, byteField, extract_eq_extract_dataField] using hz

theorem dataField_eq_raw24 {w : CommandWord} (hz : w.extractLsb' 24 8 = 0#8) :
    dataField w = raw24 (byteField w 0) (byteField w 8) (byteField w 16) := by
  simpa [eq_raw24_iff, byteField, extract_eq_extract_dataField] using hz

theorem dataField_eq_rd {w : CommandWord} (hz : w.extractLsb' 8 24 = 0#24) :
    dataField w = operandData (.rd (byteField w 0)) := by
  simpa [eq_operandData_rd_iff, byteField, extract_eq_extract_dataField] using hz

/-- Settles O2: the rows of the decoder, each by its opcode, its must-be-zero bits and its data. -/
theorem encodeOfDecodeIsTheWord : Obligations.EncodeOfDecodeIsTheWord := by
  intro w i h
  simp only [decode] at h
  split_ifs at h with hop hop haddr hop hop hop hop hop hop hop hsel
  · exact encode_of_requireZero h hop rfl id
  · exact encode_of_requireZero h hop haddr dataField_eq_ldcal
  · cases (requireZero_eq_ok.mp h).2
  · exact encode_of_requireZero h hop rfl dataField_eq_raw24
  · exact encode_of_requireZero h hop rfl dataField_eq_raw24
  · cases h
    exact ⟨encode_eq_of_fields hop rfl, rfl⟩
  · exact encode_of_requireZero h hop rfl id
  · exact encode_of_requireZero h hop rfl id
  · exact encode_of_requireZero h hop rfl id
  · exact encode_of_requireZero h hop hsel dataField_eq_rd
  · cases (requireZero_eq_ok.mp h).2

/-! ### The words of R65 -/

/-- R150: the selectors the decoder accepts are those the list of R65 leaves. -/
theorem legalSel_iff (sel : Byte) : legalSel sel = true ↔ ¬ IllegalByR65.unassignedSel sel.toNat := by
  simp only [legalSel, readItem, Config.ncoef, IllegalByR65.unassignedSel, ← BitVec.toNat_inj,
    BitVec.toNat_ofNat]
  split_ifs <;> simp_all [legalCalAddr_iff] <;> omega

/-- R70 steps 3 and 4: what a row of the decoder accepts. -/
theorem exists_requireZero_ok {w : CommandWord} {lo n : Nat} {rest : Except IllegalWord Instr}
    (h : lo + n = 32) : (∃ i, requireZero w lo n rest = .ok i) ↔
      (dataField w).toNat / 2 ^ lo = 0 ∧ ∃ i, rest = .ok i := by
  simp only [requireZero_eq_ok, mustBeZero_iff w h, exists_and_left]

/-- Settles O3: the rows of the decoder against the clauses of R65 for their opcodes. -/
theorem legalWordsAreThoseNotListedIllegal : Obligations.LegalWordsAreThoseNotListedIllegal := by
  intro w
  have haddrField := byteField_toNat w (lo := 8) (by decide)
  have hselField := byteField_toNat w (lo := 0) (by decide)
  simp only [decode, IllegalByR65, ← opField_toNat, ← dataField_toNat]
  split_ifs with hop hop haddr hop hop hop hop hop hop hop hsel
  -- This closes the rows without a value condition; `LDCAL`, `RD` and the unassigned opcodes stay.
  all_goals simp [exists_requireZero_ok, hop]
  · rw [legalCalAddr_iff] at haddr
    omega
  · rw [legalCalAddr_iff] at haddr
    omega
  · rw [legalSel_iff, hselField] at hsel
    simpa using fun _ => hsel
  · rw [legalSel_iff, hselField] at hsel
    simpa using fun _ => hsel
  · simp_all [← BitVec.toNat_inj]

/-! ### Operands (R63) -/

theorem toNat_of_decode {w : CommandWord} {i : Instr} (h : decode w = .ok i) :
    w.toNat = (opcode i).toNat * 2 ^ 32 + (operandData i).toNat := by
  rw [← encode_toNat, (encodeOfDecodeIsTheWord w i h).1]

/-- Settles O5: the word is its command's, and the data of each format is a sum of its operands' places. -/
theorem operandsAreUnsignedSlices : Obligations.OperandsAreUnsignedSlices := by
  refine fun w => ⟨fun a b h => ?_, fun x l m h => ?_, fun u h => ?_, fun sel h => ?_⟩
  · have hw := toNat_of_decode h
    rw [operandData_ldcal_toNat] at hw
    omega
  · have hw : ∃ op, w.toNat = op * 2 ^ 32 + (raw24 x l m).toNat :=
      h.elim (fun h => ⟨_, toNat_of_decode h⟩) fun h => ⟨_, toNat_of_decode h⟩
    obtain ⟨op, hw⟩ := hw
    rw [raw24_toNat] at hw ⊢
    omega
  · have hw : w.toNat = _ * 2 ^ 32 + u.toNat := toNat_of_decode h
    omega
  · have hw := toNat_of_decode h
    rw [operandData_rd_toNat] at hw
    omega

/-! ### Pseudo-instructions (R69) -/

theorem raw24_extract_toNat (n : BitVec 24) :
    (raw24 (n.extractLsb' 0 8) (n.extractLsb' 8 8) (n.extractLsb' 16 8)).toNat = n.toNat := by
  simp only [raw24_toNat, extractLsb'_toNat_eq_div_mod]
  omega

theorem ldcalFrom_length (a : Nat) (bs : List Byte) : (ldcalFrom a bs).length = bs.length := by
  induction bs generalizing a with
  | nil => rfl
  | cons b bs ih => simp [ldcalFrom, ih]

/-- R69: the address advances by exactly one per byte. -/
theorem ldcalFrom_getElem? (a : Nat) (bs : List Byte) (o : Nat) :
    (ldcalFrom a bs)[o]? = bs[o]?.map fun b => .ldcal (BitVec.ofNat 8 (a + o)) b := by
  induction bs generalizing a o with
  | nil => rfl
  | cons b bs ih =>
    cases o with
    | zero => rfl
    | succ o => simp [ldcalFrom, ih, Nat.add_assoc, Nat.add_comm 1]

theorem pseudoLdcalblk_length (b : Vector Byte 21) : (pseudoLdcalblk b).length = 21 := by
  simp [pseudoLdcalblk, ldcalFrom_length]

theorem pseudoLdcalblk_getElem? (b : Vector Byte 21) {o : Nat} (h : o < 21) :
    (pseudoLdcalblk b)[o]? = some (.ldcal (BitVec.ofNat 8 (0x31 + o)) b[o]) := by
  simp [pseudoLdcalblk, ldcalFrom_getElem?, Config.calBase, h]

/-- R69, R121: `LDT.F` loads its literal rounded once, since what rounding gives has a pattern. -/
theorem pseudoLdtF_loads (neg : Bool) (digits : Nat) (exp10 : Int) :
    ∃ u, pseudoLdtF neg digits exp10 = [.ldt u] ∧
      fval u = roundToF32 neg (digits * 10 ^ exp10.toNat * 2 ^ 149) (10 ^ (-exp10).toNat) :=
  ⟨_, rfl, fval_fbits (roundToF32_fits ..) (roundToF32_ne_nan neg _ _) _⟩

/-- Settles O6: the count by its places, the block by its addresses, the literal by `fval_fbits`. -/
theorem pseudoInstructionsExpand : Obligations.PseudoInstructionsExpand := by
  refine ⟨fun n => ⟨_, _, _, rfl, raw24_extract_toNat n⟩, fun n => ⟨_, _, _, rfl, raw24_extract_toNat n⟩,
    fun b => ⟨pseudoLdcalblk_length b, fun o h => pseudoLdcalblk_getElem? b h⟩, fun neg digits e => ⟨?_, ?_⟩,
    fun _ _ _ _ _ _ b =>
      ⟨pseudoLdcalblk b, rfl, pseudoLdcalblk_length b, fun o h => pseudoLdcalblk_getElem? b h⟩⟩
  · simpa using pseudoLdtF_loads neg digits e
  · simpa using pseudoLdtF_loads neg digits (-e)

/-! ### Illegal words (R65, R162) -/

theorem decode_error_of_illegal {w : CommandWord} (h : IllegalByR65 w) : ∃ why, decode w = .error why := by
  cases hdec : decode w with
  | error why => exact ⟨why, rfl⟩
  | ok i => exact absurd h ((legalWordsAreThoseNotListedIllegal w).mp ⟨i, hdec⟩)

/-- R162: an illegal word raises `ILLEGAL_COMMAND` in the unfaulted state. -/
theorem runWord_of_illegal {w : CommandWord} {s : State} (h : IllegalByR65 w) (he : s.err = 0#4) :
    runWord w s = raise .illegalCommand s := by
  obtain ⟨why, hdec⟩ := decode_error_of_illegal h
  simp only [runWord, hdec, execIllegal, unlessFaulted_of_ok he]

/-- Settles O10: the step is that word's; an `LDT` word is legal since it decodes (O1, O3). -/
theorem illegalWordsRaiseIllegalCommand : Obligations.IllegalWordsRaiseIllegalCommand := by
  refine ⟨fun s w rest hin he h => ?_, ?_, ?_, fun u => ?_⟩
  · exact (step_of_command hin).trans (runWord_of_illegal h he)
  · simp [IllegalByR65]
  · simp [IllegalByR65]
  · exact (legalWordsAreThoseNotListedIllegal _).mp ⟨_, decodeOfEncodeIsTheCommand (.ldt u) rfl⟩

/-! ### The response to a word (R71) -/

theorem codeData_toNat (c : BitVec 4) : (codeData c).toNat = c.toNat :=
  BitVec.toNat_setWidth_of_le (by decide)

/-- R71: every effect answers once, and its answer agrees with `ERR` afterwards. -/
theorem Effect.answers_once {i : Instr} {s t : State} (e : Effect s i t) :
    ∃ r, t.inputs = s.inputs ∧ t.responses = r :: s.responses ∧ (r.ok = true ↔ t.err = 0#4) ∧
      (r.ok = false → r.data.toNat = t.err.toNat) ∧
      (r.ok = true → (∀ sel, i ≠ .rd sel) → r.data = 0#32) := by
  cases e with
  | absorbed he => exact ⟨⟨false, codeData s.err⟩, by simp [he, codeData_toNat]⟩
  | raised f he => exact ⟨⟨false, codeData f.code⟩, by simp [codeData_toNat]⟩
  | @rd sel item data he => exact ⟨⟨true, data⟩, by simp [he]⟩
  | _ => exact ⟨⟨true, 0#32⟩, by simp [*]⟩

theorem exec_has_next (i : Instr) (s : State) : ∃ t, exec i s = .next t := by
  obtain ⟨-, -, h⟩ | ⟨-, -, f, h⟩ | ⟨-, d, t, h⟩ := exec_cases i s
  · exact ⟨_, h⟩
  · exact ⟨_, h⟩
  · exact ⟨_, h⟩

theorem execIllegal_has_next (why : IllegalWord) (s : State) : ∃ t, execIllegal why s = .next t := by
  unfold execIllegal unlessFaulted
  split
  · exact ⟨_, rfl⟩
  · exact ⟨_, rfl⟩

/-- A word has an effect of its command, or that of a fault where it is illegal. -/
theorem exists_effect_of_runWord (w : CommandWord) (s : State) :
    ∃ i t, runWord w s = .next t ∧ Effect s i t ∧ ∀ sel, i = .rd sel → decode w = .ok (.rd sel) := by
  cases hdec : decode w with
  | ok i =>
    obtain ⟨t, ht⟩ := exec_has_next i s
    exact ⟨i, t, (runWord_of_decode hdec s).trans ht, effect_of_exec ht, fun _ hi => hi ▸ rfl⟩
  | error why =>
    obtain ⟨t, ht⟩ := execIllegal_has_next why s
    exact ⟨.rst, t, by simp only [runWord, hdec, ht], effect_of_execIllegal ht, by simp⟩

/-- Settles O12: the step is the word's effect, which answers once. -/
theorem oneResponsePerCommandWord : Obligations.OneResponsePerCommandWord := by
  intro s w rest hin
  obtain ⟨i, t, ht, e, hrd⟩ := exists_effect_of_runWord w { s with inputs := rest }
  obtain ⟨r, hinputs, hresp, hok, hfault, hdata⟩ := e.answers_once
  exact ⟨t, r, (step_of_command hin).trans ht, hinputs, hresp, hok, hfault,
    fun h hne => hdata h fun sel hi => hne sel (hrd sel hi)⟩

end Sys2Proof.Machine

/-! Proofs about the operand load commands (`40_operand_load.md`): what each of them does in the unfaulted
state, the terms with an illegal operand, and the words of the rules' examples. -/

namespace Sys2Proof.Machine

/-! ### The load commands in the unfaulted state (R80 to R83) -/

section
variable {s : State} (he : s.err = 0#4)
include he

theorem exec_ldcal_of_legal {a : Byte} (ha : legalCalAddr a = true) (b : Byte) :
    exec (.ldcal a b) s = complete 0#32 (s.memWrite a b) := by
  rw [exec, execLdcal, unlessFaulted_of_ok he, if_pos ha]

theorem exec_ldrawt_of_ok (x l m : Byte) :
    exec (.ldrawt x l m) s = complete 0#32 (s.writeRawt (raw24 x l m)) := by
  rw [exec, execLdrawt, unlessFaulted_of_ok he]

theorem exec_ldrawp_of_ok (x l m : Byte) :
    exec (.ldrawp x l m) s = complete 0#32 (s.writeRawp (raw24 x l m)) := by
  rw [exec, execLdrawp, unlessFaulted_of_ok he]

theorem exec_ldt_of_ok (u : Word) : exec (.ldt u) s = complete 0#32 (s.writeTlin u) := by
  rw [exec, execLdt, unlessFaulted_of_ok he]

/-! ### Operands that no word carries (log entry 15) -/

theorem exec_ldcal_of_illegal {a : Byte} (ha : legalCalAddr a = false) (b : Byte) :
    exec (.ldcal a b) s = raise .illegalCommand s := by
  rw [exec, execLdcal, unlessFaulted_of_ok he, ha, if_neg Bool.false_ne_true]

theorem exec_rd_of_illegal {sel : Byte} (hsel : legalSel sel = false) :
    exec (.rd sel) s = raise .illegalCommand s := by
  have hitem : readItem sel = none := by
    rwa [legalSel, Option.isSome_eq_false_iff, Option.isNone_iff_eq_none] at hsel
  simp only [exec, execRd, unlessFaulted_of_ok he, hitem]

end

/-- Settles O20: the state after is that of `memWrite`, read by address and by bit of the mask. -/
theorem ldcalStoresOneByte : Obligations.LdcalStoresOneByte := by
  intro s a b hs he hlo hhi
  have ha : legalCalAddr a = true := (legalCalAddr_iff a).mpr ⟨hlo, hhi⟩
  refine ⟨s.cal.write a.toNat b, markWritten s.calw (calOffset a), ?_, Memory.write_wf hs _ _,
    fun c => Memory.read_write hs _ c b, fun o ho => getLsbD_markWritten _ _ o ho⟩
  rw [exec_ldcal_of_legal he ha, complete_next]
  rfl

/-- Settles O21: the value is `raw24`, whose number is the sum of the bytes' places. -/
theorem ldrawtLoadsTheCount : Obligations.LdrawtLoadsTheCount :=
  fun _ x l m he => ⟨raw24 x l m, exec_ldrawt_of_ok he x l m, raw24_toNat x l m⟩

/-- Settles O22: the value is `raw24` here too, now in `RAWP`. -/
theorem ldrawpLoadsTheCount : Obligations.LdrawpLoadsTheCount :=
  fun _ x l m he => ⟨raw24 x l m, exec_ldrawp_of_ok he x l m, raw24_toNat x l m⟩

/-- Settles O23: the word is that of `LDT`; the state after is unfaulted and holds the pattern in `TLIN`. -/
theorem ldtStoresThePattern : Obligations.LdtStoresThePattern := by
  intro s u he
  refine ⟨decodeOfEncodeIsTheCommand (.ldt u) rfl, exec_ldt_of_ok he u, fun t ht => ?_⟩
  obtain rfl := eq_of_complete ((exec_ldt_of_ok he u).symm.trans ht)
  have hdata : ((s.writeTlin u).respond true 0#32).readData .tlin = some u := rfl
  rw [exec_rd_of_some (by simpa using he) (by decide) hdata, complete_next]

/-- Settles O18: only `LDCAL` and `RD` have an operand that can be illegal. -/
theorem illFormedOperandsRaiseIllegalCommand : Obligations.IllFormedOperandsRaiseIllegalCommand := by
  intro i s hwf he
  have hraise : exec i s = raise .illegalCommand s := by
    cases i with
    | ldcal a b => exact exec_ldcal_of_illegal he hwf b
    | rd sel => exact exec_rd_of_illegal he hwf
    | _ => cases hwf
  rw [hraise, raise_next]
  rfl

/-! ### The words of the rules' examples -/

/-- A well-formed command's word decodes to it. -/
theorem decode_of_encode_eq {w : CommandWord} {i : Instr} (hwf : i.wf = true) (h : encode i = w) :
    decode w = .ok i :=
  h ▸ decodeOfEncodeIsTheCommand i hwf

/-- Settles O4: each of the words is its command's. -/
theorem sampleWordsDecode : Obligations.SampleWordsDecode :=
  ⟨decode_of_encode_eq rfl (by decide), decode_of_encode_eq (by decide) (by decide),
    decode_of_encode_eq rfl (by decide), decode_of_encode_eq rfl (by decide),
    decode_of_encode_eq rfl (by decide), decode_of_encode_eq rfl (by decide),
    decode_of_encode_eq rfl (by decide), decode_of_encode_eq rfl (by decide),
    decode_of_encode_eq (by decide) (by decide)⟩

end Sys2Proof.Machine

/-! Proofs about the calibration decoder (`41_calibration_decode.md`): the fields as readings of their bytes,
the exact coefficients, the patterns they have, and the bytes each of them depends on. -/

namespace Sys2Proof.Machine

/-! ### The extraction primitives (R90 to R93) -/

theorem s8_eq_toInt (x : Byte) : s8 x = x.toInt := by
  simp only [s8, u8, BitVec.toInt_eq_toNat_cond]
  omega

theorem u16le_eq_toNat (lo hi : Byte) : u16le lo hi = (hi ++ lo).toNat := by
  simp only [u16le, u8, Laws.toNat_append_add]
  omega

theorem s16le_eq_toInt (lo hi : Byte) : s16le lo hi = (hi ++ lo).toInt := by
  simp only [s16le, u16le_eq_toNat, BitVec.toInt_eq_toNat_cond]
  omega

/-- Settles O24: the value of the byte or of the pair, less 2^8 or 2^16 where its sign bit is 1. -/
theorem extractionReadsTheBits : Obligations.ExtractionReadsTheBits :=
  fun lo hi => ⟨rfl, s8_eq_toInt lo, u16le_eq_toNat lo hi, s16le_eq_toInt lo hi⟩

theorem stored_u16 (b : Nat → Byte) (o : Nat) : stored b .u16 o = (b (o + 1) ++ b o).toNat :=
  u16le_eq_toNat _ _

theorem stored_s16 (b : Nat → Byte) (o : Nat) : stored b .s16 o = (b (o + 1) ++ b o).toInt :=
  s16le_eq_toInt _ _

theorem stored_s8 (b : Nat → Byte) (o : Nat) : stored b .s8 o = (b o).toInt :=
  s8_eq_toInt _

/-! ### The exact coefficients (R94 to R112, R115) -/

/-- R111: with all 21 bytes written, `DECODE` completes in the unfaulted state. -/
theorem exec_decode_of_full {s : State} (he : s.err = 0#4) (hfull : s.calw = 0x1FFFFF#21) :
    exec .decode s = complete 0#32 (s.writeCoef (decodeCoefs Config.calLayout s.calByte)) := by
  rw [exec, execDecode, unlessFaulted_of_ok he, if_pos ((calFull_iff s).mpr hfull)]

theorem State.calByte_eq_read (s : State) (o : Nat) : s.calByte o = s.cal.read (0x31 + o) := rfl

theorem stored_range (b : Nat → Byte) (kind : FieldKind) (o : Nat) :
    -32768 ≤ stored b kind o ∧ stored b kind o ≤ 65535 := by
  cases kind with
  | u16 => have := stored_u16_range b o; omega
  | s16 => have := stored_s16_range b o; omega
  | s8 => have := stored_s8_range b o; omega

/-- A stored integer fits in 24 bits, so its scaling is exact. -/
theorem fval_scaled_stored (b : Nat → Byte) (kind : FieldKind) (o : Nat) {k : Int} (hlo : -100 ≤ k)
    (hhi : k ≤ 149) : fval (scaled (stored b kind o) k) = exactScaled (stored b kind o) k := by
  have := stored_range b kind o
  exact fval_scaled (by omega) hlo hhi

/-- R115: the bias of the stored p1 and p2 is subtracted as an integer, and the difference fits too. -/
theorem fval_scaled_stored_sub_bias (b : Nat → Byte) (kind : FieldKind) (o : Nat) {k : Int}
    (hlo : -100 ≤ k) (hhi : k ≤ 149) :
    fval (scaled (stored b kind o - Config.bias) k) = exactScaled (stored b kind o - 16384) k := by
  have := stored_range b kind o
  exact fval_scaled (by simp only [Config.bias]; omega) hlo hhi

/-- Settles O25: the coefficients are those of `decodeCoefs`, each the exact scaling of its bytes' reading. -/
theorem decodeWritesTheExactCoefficients : Obligations.DecodeWritesTheExactCoefficients := by
  intro s he hfull
  refine ⟨decodeCoefs Config.calLayout s.calByte, exec_decode_of_full he hfull, ?_⟩
  simp only [decodeCoefs, Config.calLayout, fval_scaled_stored, fval_scaled_stored_sub_bias, Int.reduceNeg,
    Int.reduceLE]
  simp [stored_u16, stored_s16, stored_s8, State.calByte_eq_read]

/-! ### Zero or normal (R112) -/

/-- The inversion of `fval` at a finite value: a subnormal number or a zero, or a normal number (R120). -/
theorem fields_of_fval_fin {u : Word} {neg : Bool} {m : Nat} (h : fval u = .fin neg m) :
    (u.toNat / 2 ^ 23 % 256 = 0 ∧ u.msb = neg ∧ u.toNat % 2 ^ 23 = m) ∨
    (1 ≤ u.toNat / 2 ^ 23 % 256 ∧ u.toNat / 2 ^ 23 % 256 ≤ 254 ∧ 2 ^ 23 ≤ m) := by
  simp only [fval, extractLsb'_toNat_eq_div_mod] at h
  split_ifs at h with h255 hf h0
  · obtain ⟨hs, hm⟩ := F32.fin.inj h
    exact .inl ⟨h0, hs, by simpa using hm⟩
  · obtain ⟨-, hm⟩ := F32.fin.inj h
    have hpos := Nat.two_pow_pos (u.toNat / 2 ^ 23 % 2 ^ 8 - 1)
    refine .inr ⟨by omega, by omega, ?_⟩
    rw [← hm]
    exact (Nat.le_add_right _ _).trans (Nat.le_mul_of_pos_right _ hpos)

theorem eq_zero_of_fval_zero {u : Word} (h : fval u = .fin false 0) : u = 0#32 := by
  obtain ⟨he, hs, hf⟩ | ⟨-, -, hm⟩ := fields_of_fval_fin h
  · rw [BitVec.msb_eq_false_iff_two_mul_lt] at hs
    rw [← BitVec.toNat_inj, BitVec.toNat_ofNat]
    omega
  · omega

/-- R112: a nonzero value `n * 2^(-k)` with an exponent of R96 is at least `2^84` units, far above the
subnormal numbers. -/
theorem CoefPattern.zero_or_normal {i : Nat} {u : Word} (hi : i < 14) (h : CoefPattern i u) :
    u = 0#32 ∨ (1 ≤ u.toNat / 2 ^ 23 % 256 ∧ u.toNat / 2 ^ 23 % 256 ≤ 254) := by
  obtain ⟨n, -, -, hval⟩ := h
  by_cases hn : n = 0
  · exact .inl (eq_zero_of_fval_zero (by simpa [hn, exactScaled] using hval))
  · right
    have hexp : ∀ i < 14, 23 ≤ (149 - coefExp i).toNat := by decide
    have hbig : 2 ^ 23 ≤ n.natAbs * 2 ^ (149 - coefExp i).toNat :=
      (Nat.pow_le_pow_right two_pos (hexp i hi)).trans
        (Nat.le_mul_of_pos_left _ (Int.natAbs_pos.mpr hn))
    obtain ⟨-, -, hm⟩ | ⟨hlo, hhi, -⟩ := fields_of_fval_fin hval
    · have := Nat.mod_lt u.toNat (Nat.two_pow_pos 23)
      omega
    · exact ⟨hlo, hhi⟩

/-- The coefficients listed by name (R14) are those listed by index. The file is a variable, so that no check
of it computes a coefficient. -/
theorem Coefs.forall_mem_of_get {P : Word → Prop} {c : Coefs} (h : ∀ i < 14, P (c.get i)) :
    ∀ u ∈ [c.t1, c.t2, c.t3, c.p1, c.p2, c.p3, c.p4, c.p5, c.p6, c.p7, c.p8, c.p9, c.p10, c.p11], P u :=
  have hmap : ∀ u ∈ (List.range 14).map c.get, P u :=
    List.forall_mem_map.mpr fun i hi => h i (List.mem_range.mp hi)
  hmap

/-- Settles O26: the 14 patterns are ones that coefficients can hold. -/
theorem decodedCoefficientsAreZeroOrNormal : Obligations.DecodedCoefficientsAreZeroOrNormal := by
  intro s t he hfull ht
  obtain rfl := eq_of_complete ((exec_decode_of_full he hfull).symm.trans ht)
  simp only [State.respond_coef, State.writeCoef_coef]
  exact Coefs.forall_mem_of_get fun i hi => (coefPattern_decodeCoefs _ _ i hi).zero_or_normal hi

/-! ### Each coefficient and its own bytes (R113) -/

/-- Settles O27: `DECODE` completes in both states, and the reading of a field names no bytes but its own. -/
theorem coefficientsDependOnTheirOwnBytes : Obligations.CoefficientsDependOnTheirOwnBytes := by
  intro s t hse hsfull hte htfull
  refine ⟨_, _, exec_decode_of_full hse hsfull, exec_decode_of_full hte htfull, rfl, rfl, ?_⟩
  simp +contextual [decodeCoefs, Config.calLayout, stored_u16, stored_s16, stored_s8, State.calByte_eq_read]

end Sys2Proof.Machine

/-! Proofs about the floating-point format and the compensation (`42_compensation.md`): nearest rounding, the
results of each operation, the patterns of values, and what `COMPT` and `COMPP` compute. -/

namespace Sys2Proof.Machine

/-! ### Rounding to the nearest (R121) -/

/-- The multiples of the spacing around `q` that bracket `q` leave no representable magnitude strictly
between them. -/
theorem Representable.le_or_ge_of_spacing {y q k : Nat} (hy : Representable y) (hk : k = q / spacing q) :
    y ≤ k * spacing q ∨ (k + 1) * spacing q ≤ y := by
  refine (Nat.lt_or_ge (k * spacing q) y).symm.imp_right fun hlt => ?_
  have hdvd : spacing q ∣ y := by
    by_cases hq : q < 2 ^ 24
    · rw [spacing_of_lt hq]
      exact one_dvd y
    · have hq0 : q ≠ 0 := by omega
      have hbinade : 2 ^ q.log2 ≤ k * spacing q := by
        have hself : 2 ^ q.log2 / spacing q * spacing q = 2 ^ q.log2 :=
          Nat.div_mul_cancel (pow_dvd_pow 2 (Nat.sub_le _ _))
        rw [hk, ← hself]
        exact Nat.mul_le_mul_right _ (Nat.div_le_div_right (Nat.log2_self_le hq0))
      have hspacing : spacing q = spacing (2 ^ q.log2) := by
        rw [spacing, spacing, Nat.log2_two_pow]
      rw [hspacing]
      exact (spacing_mono (hbinade.trans hlt.le)).trans hy.spacing_dvd
  obtain ⟨j, rfl⟩ := hdvd
  rw [Nat.mul_comm] at hlt ⊢
  exact Nat.mul_le_mul_left _ (Nat.lt_of_mul_lt_mul_left hlt)

theorem roundsUp_iff (k r step : Nat) :
    roundsUp k r step = true ↔ step < 2 * r ∨ (2 * r = step ∧ k % 2 = 1) := by
  simp [roundsUp]

/-- `n / d` lies in the gap from `k * u` to `(k + 1) * u` between two representable magnitudes, `r / d` above
its lower end. -/
structure InGap (n d u k r : Nat) : Prop where
  eq : n = k * (u * d) + r
  lt : r < u * d
  bracket : ∀ y, Representable y → y ≤ k * u ∨ (k + 1) * u ≤ y

/-- Rounding gives the nearer end of a gap, or the even multiple of the gap's size where both are as near. -/
theorem exists_inGap (n : Nat) {d : Nat} (hd : 0 < d) : ∃ u k r : Nat, InGap n d u k r ∧
    ((roundMag n d = k * u ∧ (2 * r < u * d ∨ 2 * r = u * d ∧ k % 2 = 0)) ∨
      (roundMag n d = (k + 1) * u ∧ (u * d < 2 * r ∨ 2 * r = u * d ∧ k % 2 = 1))) := by
  have hstep : 0 < spacing (n / d) * d := Nat.mul_pos (spacing_pos _) hd
  refine ⟨spacing (n / d), n / (spacing (n / d) * d), n % (spacing (n / d) * d),
    ⟨(Nat.div_add_mod' n _).symm, Nat.mod_lt _ hstep, fun y hy => hy.le_or_ge_of_spacing ?_⟩, ?_⟩
  · rw [Nat.mul_comm, Nat.div_div_eq_div_mul]
  · by_cases hup : roundsUp (n / (spacing (n / d) * d)) (n % (spacing (n / d) * d)) (spacing (n / d) * d)
    · exact .inr ⟨by simp only [roundMag, if_pos hup], (roundsUp_iff _ _ _).mp hup⟩
    · refine .inl ⟨by simp only [roundMag, if_neg hup], ?_⟩
      rw [roundsUp_iff] at hup
      omega

namespace InGap

variable {n d u k r y j : Nat}

/-! The distance to `n / d`, in units of `1 / d`, of a magnitude on either side of the gap and `j` away from
it. -/

theorem dist_below (g : InGap n d u k r) (hy : k * u = y + j) : |(y : Int) * d - n| = (r : Int) + j * d := by
  have hyd : y * d + j * d = k * (u * d) := by rw [← Nat.add_mul, ← hy, Nat.mul_assoc]
  have hn := g.eq
  rw [Int.abs_eq_natAbs]
  omega

theorem dist_above (g : InGap n d u k r) (hy : y = (k + 1) * u + j) :
    |(y : Int) * d - n| = (u : Int) * d - r + j * d := by
  have hyd : y * d = k * (u * d) + u * d + j * d := by rw [hy]; ring
  have hn := g.eq
  have hr := g.lt
  rw [Int.abs_eq_natAbs]
  omega

end InGap

/-- One end of a gap is an even multiple of the gap's size. -/
theorem two_mul_gap_dvd {k u : Nat} {m y : Int} (hk : k % 2 = 0) (hm : m = (k * u : Nat))
    (hy : m - y = u ∨ m - y = -u) : 2 * (m - y) ∣ m := by
  obtain ⟨i, rfl⟩ := Nat.dvd_of_mod_eq_zero hk
  have hdvd : 2 * (u : Int) ∣ m := ⟨i, by rw [hm]; push_cast; ring⟩
  obtain hy | hy := hy
  · rwa [hy]
  · rwa [hy, mul_neg, neg_dvd]

/-- Rounding goes to the nearest representable magnitude, and to the even one of two: a magnitude on the same
side of the gap is no nearer, and one on the other side is as near only if both ends of the gap are. -/
theorem roundMag_nearest_even {n d y : Nat} (hd : 0 < d) (hy : Representable y) :
    |(roundMag n d : Int) * d - n| ≤ |(y : Int) * d - n| ∧
    (|(roundMag n d : Int) * d - n| = |(y : Int) * d - n| → (y : Int) ≠ roundMag n d →
      2 * ((roundMag n d : Int) - y) ∣ roundMag n d) := by
  obtain ⟨u, k, r, g, hm⟩ := exists_inGap n hd
  generalize roundMag n d = m at hm ⊢
  have hpos (j : Nat) : 0 ≤ (j : Int) * d := by positivity
  have hzero (j : Nat) (h : (j : Int) * d = 0) : (j : Int) = 0 := by simpa [hd.ne'] using h
  obtain hlow | hhigh := g.bracket y hy
  · obtain ⟨j, hj⟩ := Nat.exists_eq_add_of_le hlow
    have hjpos := hpos j
    rw [g.dist_below hj]
    obtain ⟨hm, hhalf⟩ | ⟨hm, hhalf⟩ := hm
    · rw [g.dist_below (y := m) (j := 0) hm.symm]
      refine ⟨by omega, fun h hne => absurd ?_ hne⟩
      have := hzero j (by omega)
      omega
    · rw [g.dist_above (y := m) (j := 0) hm]
      refine ⟨by omega, fun h _ => two_mul_gap_dvd (k := k + 1) (by omega) (congrArg _ hm) (.inl ?_)⟩
      have := hzero j (by omega)
      rw [Nat.add_one_mul] at hm
      omega
  · obtain ⟨j, hj⟩ := Nat.exists_eq_add_of_le hhigh
    have hjpos := hpos j
    rw [g.dist_above hj]
    obtain ⟨hm, hhalf⟩ | ⟨hm, hhalf⟩ := hm
    · rw [g.dist_below (y := m) (j := 0) hm.symm]
      refine ⟨by omega, fun h _ => two_mul_gap_dvd (by omega) (congrArg _ hm) (.inr ?_)⟩
      have := hzero j (by omega)
      rw [Nat.add_one_mul] at hj
      omega
    · rw [g.dist_above (y := m) (j := 0) hm]
      refine ⟨by omega, fun h hne => absurd ?_ hne⟩
      have := hzero j (by omega)
      omega

/-- Settles O36: rounding takes the nearer end of a gap of representable magnitudes. -/
theorem roundingIsToNearestEven : Obligations.RoundingIsToNearestEven :=
  fun n d hd => ⟨roundMag_representable n d, fun c e hc => roundMag_nearest_even hd ⟨c, e, hc, rfl⟩⟩

/-! ### Overflow and underflow (R121) -/

/-- `(2^24 - 1) * 2^104`, the largest finite value (R120), in units of 2^-149. -/
def maxFinite : Nat := (2 ^ 24 - 1) * 2 ^ 104 * 2 ^ 149

theorem representable_maxFinite : Representable maxFinite :=
  ⟨2 ^ 24 - 1, 253, by decide, by norm_num [maxFinite]⟩

theorem representable_overflowMag : Representable overflowMag :=
  ⟨1, 277, by decide, by rw [overflowMag, ← pow_add, Nat.one_mul]⟩

theorem Representable.le_maxFinite {m : Nat} (h : Representable m) (hm : m < overflowMag) :
    m ≤ maxFinite := by
  obtain ⟨c, e, hc, rfl⟩ := h
  have hmax : maxFinite = (2 ^ 24 - 1) * 2 ^ 253 := by norm_num [maxFinite]
  have hover : overflowMag = 2 ^ 24 * 2 ^ 253 := by norm_num [overflowMag]
  rw [hmax]
  obtain ⟨i, rfl⟩ | hlt := (Nat.lt_or_ge e 253).symm.imp_left Nat.exists_eq_add_of_le
  · rw [pow_add, Nat.mul_left_comm, Nat.mul_comm] at hm ⊢
    rw [hover] at hm
    have := Nat.lt_of_mul_lt_mul_right hm
    exact Nat.mul_le_mul_right _ (by omega)
  · exact Nat.mul_le_mul (by omega) (Nat.pow_le_pow_right two_pos hlt.le)

theorem roundToF32_eq_inf_iff (neg : Bool) (n d : Nat) :
    roundToF32 neg n d = .inf neg ↔ overflowMag ≤ roundMag n d := by
  simp only [roundToF32]
  split <;> simp [*]

/-- Half a spacing above the largest finite value, as a sum of the two magnitudes it lies between. -/
theorem maxFinite_add_overflowMag : maxFinite + overflowMag = 2 * ((2 ^ 25 - 1) * 2 ^ 103 * 2 ^ 149) := by
  norm_num [maxFinite, overflowMag]

/-- Rounding reaches the magnitude 2^128 from its half way to the largest finite value on: below that the
largest finite value is nearer, and at it 2^128 is the even one. -/
theorem overflowMag_le_roundMag_iff {n d : Nat} (hd : 0 < d) :
    overflowMag ≤ roundMag n d ↔ (2 ^ 25 - 1) * 2 ^ 103 * 2 ^ 149 * d ≤ n := by
  have hlt : maxFinite < overflowMag := by norm_num [maxFinite, overflowMag]
  have hsum : maxFinite * d + overflowMag * d = 2 * ((2 ^ 25 - 1) * 2 ^ 103 * 2 ^ 149 * d) := by
    rw [← Nat.add_mul, maxFinite_add_overflowMag, Nat.mul_assoc]
  have hltd : maxFinite * d < overflowMag * d := Nat.mul_lt_mul_of_pos_right hlt hd
  constructor
  · intro h
    have hmd : overflowMag * d ≤ roundMag n d * d := Nat.mul_le_mul_right d h
    obtain ⟨hnear, -⟩ := roundMag_nearest_even (n := n) hd representable_maxFinite
    rw [Int.abs_eq_natAbs, Int.abs_eq_natAbs] at hnear
    omega
  · intro h
    by_contra hm
    have hle : roundMag n d ≤ maxFinite := (roundMag_representable n d).le_maxFinite (Nat.lt_of_not_le hm)
    have hmd : roundMag n d * d ≤ maxFinite * d := Nat.mul_le_mul_right d hle
    obtain ⟨hnear, htie⟩ := roundMag_nearest_even (n := n) hd representable_overflowMag
    rw [Int.abs_eq_natAbs, Int.abs_eq_natAbs] at hnear htie
    have heq : roundMag n d = maxFinite := Nat.eq_of_mul_eq_mul_right hd (by omega)
    rw [heq] at hnear htie
    have hdvd := htie (by omega) (by omega)
    norm_num [maxFinite, overflowMag] at hdvd

/-- Settles O37: the half way between the largest finite value and 2^128. -/
theorem overflowThresholdIsExact : Obligations.OverflowThresholdIsExact :=
  fun neg n d hd => (roundToF32_eq_inf_iff neg n d).trans (overflowMag_le_roundMag_iff hd)

/-- Rounding underflows to 0 up to half a unit: below it 0 is nearer than 1, and at it 0 is the even one. -/
theorem roundMag_eq_zero_iff {n d : Nat} (hd : 0 < d) : roundMag n d = 0 ↔ 2 * n ≤ d := by
  constructor
  · intro h
    obtain ⟨hnear, -⟩ := roundMag_nearest_even (n := n) (y := 1) hd (.of_lt (by decide))
    rw [h, Int.abs_eq_natAbs, Int.abs_eq_natAbs] at hnear
    omega
  · intro h
    obtain ⟨hnear, htie⟩ := roundMag_nearest_even (n := n) (y := 0) hd (.of_lt (by decide))
    rw [Int.abs_eq_natAbs, Int.abs_eq_natAbs] at hnear htie
    have hmd : roundMag n d * d ≤ 1 * d := by omega
    have hle : roundMag n d ≤ 1 := Nat.le_of_mul_le_mul_right hmd hd
    by_contra hne
    have hone : roundMag n d = 1 := by omega
    rw [hone] at hnear htie
    have := htie (by omega) (by omega)
    omega

theorem roundToF32_eq_zero_iff (neg : Bool) {n d : Nat} (hd : 0 < d) :
    roundToF32 neg n d = .fin neg 0 ↔ 2 * n ≤ d := by
  rw [← roundMag_eq_zero_iff hd]
  simp only [roundToF32]
  split
  · have : 0 < overflowMag := by norm_num [overflowMag]
    simp only [reduceCtorEq, false_iff]
    omega
  · simp

/-! ### The results of each operation (R121, R123, R125) -/

theorem roundToF32_zero (neg : Bool) {d : Nat} (hd : 0 < d) : roundToF32 neg 0 d = .fin neg 0 :=
  (roundToF32_eq_zero_iff neg hd).mpr (Nat.zero_le d)

/-- What rounding gives has the sign it was given. -/
theorem sign_of_roundToF32 {neg s : Bool} {n d k : Nat}
    (h : roundToF32 neg n d = .fin s k ∨ roundToF32 neg n d = .inf s) : s = neg := by
  obtain hc | hc := roundToF32_cases neg n d <;> simp_all

theorem fmul_fin (a b : Bool) (m n : Nat) :
    fmul (.fin a m) (.fin b n) = roundToF32 (a ^^ b) (m * n) (2 ^ 149) := rfl

/-! A sum of two finite values, by their signs and magnitudes. -/

theorem fadd_same_sign (a : Bool) (m n : Nat) : fadd (.fin a m) (.fin a n) = roundToF32 a (m + n) 1 := by
  simp [fadd]

theorem fadd_of_gt {a b : Bool} (hab : a ≠ b) {m n : Nat} (h : n < m) :
    fadd (.fin a m) (.fin b n) = roundToF32 a (m - n) 1 := by
  simp [fadd, hab, h]

theorem fadd_of_lt {a b : Bool} (hab : a ≠ b) {m n : Nat} (h : m < n) :
    fadd (.fin a m) (.fin b n) = roundToF32 b (n - m) 1 := by
  simp [fadd, hab, h, h.le]

/-- An exact zero sum of opposite signs is `+0.0`. -/
theorem fadd_opposite {a b : Bool} (hab : a ≠ b) (m : Nat) : fadd (.fin a m) (.fin b m) = .fin false 0 := by
  simp [fadd, hab]

/-- `⊕` is commutative in value: the cases of its definition are symmetric. -/
theorem fadd_comm (x y : F32) : fadd x y = fadd y x := by
  cases x with
  | nan => cases y <;> rfl
  | inf a =>
    cases y with
    | inf b => cases a <;> cases b <;> rfl
    | _ => rfl
  | fin a m =>
    cases y with
    | fin b n =>
      by_cases hab : a = b
      · rw [hab, fadd_same_sign, fadd_same_sign, Nat.add_comm]
      · obtain hlt | rfl | hgt := Nat.lt_trichotomy m n
        · rw [fadd_of_lt hab hlt, fadd_of_gt (Ne.symm hab) hlt]
        · rw [fadd_opposite hab, fadd_opposite (Ne.symm hab)]
        · rw [fadd_of_gt hab hgt, fadd_of_lt (Ne.symm hab) hgt]
    | _ => rfl

/-- `⊗` is commutative in value: the exclusive or of the signs and the product of the magnitudes are. -/
theorem fmul_comm (x y : F32) : fmul x y = fmul y x := by
  cases x with
  | nan => cases y <;> rfl
  | inf a =>
    cases y with
    | nan => rfl
    | inf b => simp only [fmul, Bool.xor_comm]
    | fin b n => simp only [fmul, Bool.xor_comm]
  | fin a m =>
    cases y with
    | nan => rfl
    | inf b => simp only [fmul, Bool.xor_comm]
    | fin b n => rw [fmul_fin, fmul_fin, Bool.xor_comm, Nat.mul_comm]

/-- Settles O40: each operation on its own. -/
theorem sumsAndProductsCommute : Obligations.SumsAndProductsCommute :=
  fun x y => ⟨fadd_comm x y, fmul_comm x y⟩

/-- A value that a pattern holds, plus a zero, is itself: the sum is exact. -/
theorem fadd_zero_of_fits {a : Bool} {m : Nat} (h : Fits (.fin a m)) (hm : m ≠ 0) (b : Bool) :
    fadd (.fin a m) (.fin b 0) = .fin a m := by
  obtain ⟨hrep, hlt⟩ := h
  by_cases hab : a = b
  · rw [← hab, fadd_same_sign, Nat.add_zero, roundToF32_one a hrep hlt]
  · rw [fadd_of_gt hab (Nat.pos_of_ne_zero hm), Nat.sub_zero, roundToF32_one a hrep hlt]

/-- Settles O38: finite products and sums by what rounding does, infinities by their cases. -/
theorem zerosAndInfinitiesAsStated : Obligations.ZerosAndInfinitiesAsStated := by
  refine ⟨fun a b n => ?_, fun a b m n s k h => sign_of_roundToF32 h, fun a b m n => ?_,
    fun a m => fadd_opposite (Bool.not_ne_self a).symm m, fun a => ?_, fun u a b m hu hm => ?_,
    fun a b m => ⟨rfl, rfl⟩, fun a => if_pos rfl, fun a b m hm => if_neg hm, fun a b m hm => ?_,
    fun a b => rfl⟩
  · rw [fmul_fin, Nat.zero_mul, roundToF32_zero _ (by decide)]
  · rw [fmul_fin, roundToF32_eq_zero_iff _ (by decide)]
  · rw [fadd_same_sign, roundToF32_zero _ (by decide)]
  · rw [hu]
    exact fadd_zero_of_fits (hu ▸ fval_fits u) hm b
  · rw [fmul_comm]
    exact if_neg hm

/-- Settles O41: an integer below 2^24 is representable, and so is its count of 2^-149. -/
theorem cvtIsExactBelowTwoToThe24 : Obligations.CvtIsExactBelowTwoToThe24 := by
  intro n hn
  refine roundToF32_one _ ((Representable.of_lt hn).mul_two_pow 149) ?_
  exact Nat.mul_lt_mul_of_pos_right (hn.trans (by norm_num)) (Nat.two_pow_pos 149)

/-- A value as a signed count of 2^-149. -/
def signedCount (neg : Bool) (mag : Nat) : Int := if neg then -(mag : Int) else (mag : Int)

@[simp] theorem natAbs_signedCount (a : Bool) (m : Nat) : (signedCount a m).natAbs = m := by
  cases a <;> simp [signedCount]

theorem signedCount_neg_iff (a : Bool) {m : Nat} (hm : m ≠ 0) : signedCount a m < 0 ↔ a = true := by
  cases a with
  | false => simp [signedCount]
  | true =>
    simp only [signedCount, if_true, iff_true]
    omega

theorem signedCount_not (b : Bool) (n : Nat) : signedCount (!b) n = -signedCount b n := by
  cases b <;> simp [signedCount]

theorem signedCount_add_same (a : Bool) (m n : Nat) :
    signedCount a m + signedCount a n = signedCount a (m + n) := by
  simp only [signedCount]
  split <;> omega

theorem signedCount_add_not (a : Bool) {m n : Nat} (h : n ≤ m) :
    signedCount a m + signedCount (!a) n = signedCount a (m - n) := by
  rw [signedCount_not]
  simp only [signedCount]
  split <;> omega

/-- An exact result given as a signed count, rounded once with its own sign (R121). -/
def roundCount (c : Int) : F32 := roundToF32 (decide (c < 0)) c.natAbs 1

theorem roundCount_signedCount (a : Bool) {m : Nat} (hm : m ≠ 0) :
    roundCount (signedCount a m) = roundToF32 a m 1 := by
  simp [roundCount, signedCount_neg_iff a hm]

/-- A sum of opposite signs that is not 0 has the sign of the greater magnitude. -/
theorem fadd_opposite_eq_roundCount (a : Bool) {m n : Nat} (h : n < m) :
    fadd (.fin a m) (.fin (!a) n) = roundCount (signedCount a m + signedCount (!a) n) := by
  rw [fadd_of_gt (Bool.not_ne_self a).symm h, signedCount_add_not a h.le, roundCount_signedCount a (by omega)]

/-- A sum that is not 0 is the exact one, rounded once. -/
theorem fadd_eq_roundCount {a b : Bool} {m n : Nat} (h : signedCount a m + signedCount b n ≠ 0) :
    fadd (.fin a m) (.fin b n) = roundCount (signedCount a m + signedCount b n) := by
  by_cases hab : b = a
  · subst hab
    rw [signedCount_add_same] at h ⊢
    have hne : m + n ≠ 0 := fun h0 => h (by cases b <;> simp [h0, signedCount])
    rw [fadd_same_sign, roundCount_signedCount b hne]
  · obtain rfl : b = !a := Bool.eq_not_of_ne hab
    obtain hlt | rfl | hgt := Nat.lt_trichotomy n m
    · exact fadd_opposite_eq_roundCount a hlt
    · exact absurd (by rw [signedCount_not, add_neg_cancel]) h
    · rw [fadd_comm, add_comm]
      simpa using fadd_opposite_eq_roundCount (!a) hgt

theorem fsub_eq_roundCount {a b : Bool} {m n : Nat} (h : signedCount a m - signedCount b n ≠ 0) :
    fsub (.fin a m) (.fin b n) = roundCount (signedCount a m - signedCount b n) := by
  rw [sub_eq_add_neg, ← signedCount_not] at h ⊢
  exact fadd_eq_roundCount h

/-- `scale` by a negative exponent is one multiplication; by `-0` it is a division by 1, which is the same. -/
theorem scale_neg (a : Bool) (m k : Nat) : scale (.fin a m) (-k) = roundToF32 a (m * 2 ^ k) 1 := by
  cases k with
  | zero => simp [scale]
  | succ k =>
    have hneg : ¬ (0 : Int) ≤ -(k + 1 : Nat) := by omega
    simp only [scale, neg_neg, Int.toNat_natCast, if_neg hneg]

/-- Settles O56: sums and differences by their signed counts; the other operations by definition. -/
theorem finiteResultsAreExactAndRoundedOnce : Obligations.FiniteResultsAreExactAndRoundedOnce :=
  fun a _ m _ k _ => ⟨fadd_eq_roundCount, fsub_eq_roundCount, fun x => ⟨rfl, rfl, fadd_comm x .nan⟩, rfl,
    by simp [scale], scale_neg a m k, rfl, roundToF32_cases⟩

theorem drawnNaN_fields (k : Nat) :
    (drawnNaN k).toNat / 2 ^ 23 % 256 = 255 ∧ (drawnNaN k).toNat % 2 ^ 23 ≠ 0 := by
  obtain ⟨-, he, hf⟩ := fields_patternOf (Config.nanSign k) 255 ((Config.nanFraction k).val + 1)
  have hlt := (Config.nanFraction k).isLt
  have he := congrArg BitVec.toNat he
  have hf := congrArg BitVec.toNat hf
  rw [extractLsb'_toNat_eq_div_mod, BitVec.toNat_ofNat] at he hf
  rw [drawnNaN]
  omega

/-- Settles O39: the first clauses are cases of the definitions, the last is how a pattern is drawn. -/
theorem nanResultsAsStated : Obligations.NanResultsAsStated := by
  refine ⟨fun x => ⟨rfl, ?_, rfl, ?_⟩, fun a => ?_, fun a b => ⟨rfl, rfl⟩, drawnNaN_fields⟩
  · exact (fadd_comm x .nan).trans rfl
  · exact (fmul_comm x .nan).trans rfl
  · cases a <;> rfl

/-! ### Patterns and values (R120) -/

/-- A pattern is its three fields. -/
theorem patternOf_fields (u : Word) :
    patternOf (BitVec.ofBool (u.getLsbD 31)) (u.extractLsb' 23 8).toNat (u.extractLsb' 0 23).toNat = u := by
  have hsign : u.getLsbD 31 = decide (2 ^ 31 ≤ u.toNat) := BitVec.msb_eq_decide u
  rw [patternOf, ← BitVec.toNat_inj, Laws.toNat_append_add, Laws.toNat_append_add, hsign, BitVec.toNat_ofBool,
    BitVec.ofNat_toNat, BitVec.ofNat_toNat, BitVec.setWidth_eq, BitVec.setWidth_eq,
    extractLsb'_toNat_eq_div_mod, extractLsb'_toNat_eq_div_mod]
  have := u.isLt
  by_cases h : 2 ^ 31 ≤ u.toNat
  · rw [decide_eq_true h, Bool.toNat_true]
    omega
  · rw [decide_eq_false h, Bool.toNat_false]
    omega

theorem log2_normal {f : Nat} (hf : f < 2 ^ 23) (k : Nat) : ((2 ^ 23 + f) * 2 ^ k).log2 = 23 + k := by
  have hpos : 0 < (2 ^ 23 + f) * 2 ^ k := by positivity
  rw [Nat.log2_eq_iff hpos.ne', show 23 + k + 1 = 24 + k by omega, pow_add, pow_add]
  exact ⟨Nat.mul_le_mul_right _ (by omega), Nat.mul_lt_mul_of_pos_right (by omega) (Nat.two_pow_pos k)⟩

/-- The pattern of a normal value. -/
theorem fbits_normal (d : Word) (s : Bool) {e f : Nat} (he : e ≠ 0) (hf : f < 2 ^ 23) :
    fbits d (.fin s ((2 ^ 23 + f) * 2 ^ (e - 1))) = patternOf (BitVec.ofBool s) e f := by
  have hpos : 0 < 2 ^ (e - 1) := Nat.two_pow_pos _
  have hbig : ¬ (2 ^ 23 + f) * 2 ^ (e - 1) < 2 ^ 23 := by
    have := Nat.le_mul_of_pos_right (2 ^ 23 + f) hpos
    omega
  simp only [fbits, if_neg hbig, log2_normal hf]
  rw [show 23 + (e - 1) - 22 = e by omega, Nat.mul_div_cancel _ hpos, Nat.add_sub_cancel_left]

/-- Settles O34: the cases of `fval`, each of which keeps the three fields. -/
theorem patternsRoundTrip : Obligations.PatternsRoundTrip := by
  intro u d hu
  have hfields := patternOf_fields u
  have hf := (u.extractLsb' 0 23).isLt
  simp only [fval] at hu ⊢
  split_ifs at hu ⊢ with h255 h0 he
  · rwa [h255, h0] at hfields
  · exact absurd rfl hu
  · rw [he] at hfields
    simpa only [fbits, if_pos hf] using hfields
  · rw [fbits_normal d _ he hf, hfields]

theorem cvt_fits (n : Int) : Fits (cvt n) := roundToF32_fits _ _ _

theorem scale_fits (x : F32) (k : Int) : Fits (scale x k) := by
  cases x with
  | nan => trivial
  | inf s => trivial
  | fin s m =>
    simp only [scale]
    split
    · exact roundToF32_fits _ _ _
    · exact roundToF32_fits _ _ _

/-- Settles O35: each result is a value that a pattern holds. -/
theorem computedValuesSurviveStoring : Obligations.ComputedValuesSurviveStoring := by
  intro u v d n k x hx hnan
  suffices h : Fits x from fval_fbits h hnan d
  simp only [List.mem_cons, List.not_mem_nil, or_false] at hx
  obtain rfl | rfl | rfl | rfl | rfl := hx
  · exact fadd_fits (fval_fits u) (fval_fits v)
  · exact fadd_fits (fval_fits u) (fneg_fits (fval_fits v))
  · exact fmul_fits _ _
  · exact cvt_fits n
  · exact scale_fits _ k

/-! ### What `COMPT` and `COMPP` write (R127, R128) -/

/-- A stored value reads back, also where it is a NaN, for which a NaN's pattern is drawn (R125). -/
theorem State.fval_computedBits (s : State) {x : F32} (hx : Fits x) : fval (s.computedBits x) = x := by
  by_cases hnan : x = .nan
  · rw [hnan]
    exact fval_drawnNaN s.nanDraws
  · exact fval_fbits hx hnan _

/-- Only a NaN's pattern depends on the draw. -/
theorem fbits_eq_of_ne_nan {x : F32} (hx : x ≠ .nan) (d e : Word) : fbits d x = fbits e x := by
  cases x with
  | nan => exact absurd rfl hx
  | inf s => rfl
  | fin s m => rfl

theorem State.computedBits_eq_of_ne_nan (s t : State) {x : F32} (hx : x ≠ .nan) :
    s.computedBits x = t.computedBits x :=
  fbits_eq_of_ne_nan hx _ _

/-- R123: a raw count is the number in bits 23:0. -/
theorem rawValue_eq (raw : Word) : rawValue raw = cvt ((raw.toNat % 2 ^ 24 : Nat) : Int) := by
  rw [rawValue, fpfmt_cvt, extractLsb'_toNat_eq_div_mod, pow_zero, Nat.div_one]

theorem compensateTemperature_fits (c : Coefs) (r : F32) : Fits (compensateTemperature c r) :=
  fadd_fits (fmul_fits _ _) (fmul_fits _ _)

theorem cubic_fits (k0 k1 k2 k3 : Word) (T : F32) : Fits (cubic k0 k1 k2 k3 T) :=
  fadd_fits (fadd_fits (fadd_fits (fval_fits k0) (fmul_fits _ _)) (fmul_fits _ _)) (fmul_fits _ _)

theorem compensatePressure_fits (c : Coefs) (r T : F32) : Fits (compensatePressure c r T) :=
  fadd_fits (fadd_fits (cubic_fits _ _ _ _ T) (fmul_fits _ _)) (fadd_fits (fmul_fits _ _) (fmul_fits _ _))

section
variable {s : State} (he : s.err = 0#4) (hcoef : s.vCoef = true)
include he hcoef

theorem exec_compt_of_ready (hrawt : s.vRawt = true) : exec .compt s =
    complete 0#32 ((s.afterDraw s.temperature).writeTlin (s.computedBits s.temperature)) := by
  rw [exec, execCompt, unlessFaulted_of_ok he, hcoef, hrawt, Bool.and_self, if_pos rfl]

theorem exec_compp_of_ready (hrawp : s.vRawp = true) (htlin : s.vTlin = true) : exec .compp s =
    complete 0#32 ((s.afterDraw s.pressure).writePress (s.computedBits s.pressure)) := by
  rw [exec, execCompp, unlessFaulted_of_ok he, hcoef, hrawp, htlin, Bool.and_self, Bool.and_self, if_pos rfl]

/-- `TLIN` after `COMPT`. -/
theorem tlin_after_compt (hrawt : s.vRawt = true) {t : State} (ht : exec .compt s = .next t) :
    t.tlin = s.computedBits s.temperature ∧ fval t.tlin = s.temperature := by
  obtain rfl := eq_of_complete ((exec_compt_of_ready he hcoef hrawt).symm.trans ht)
  exact ⟨rfl, s.fval_computedBits (compensateTemperature_fits _ _)⟩

/-- `PRESS` after `COMPP`. -/
theorem press_after_compp (hrawp : s.vRawp = true) (htlin : s.vTlin = true) {t : State}
    (ht : exec .compp s = .next t) :
    t.press = s.computedBits s.pressure ∧ fval t.press = s.pressure := by
  obtain rfl := eq_of_complete ((exec_compp_of_ready he hcoef hrawp htlin).symm.trans ht)
  exact ⟨rfl, s.fval_computedBits (compensatePressure_fits _ _ _)⟩

end

/-- The state of `complete`, with a computed value written to `TLIN`, field by field. The value is a variable,
so that no check of it computes one. -/
theorem complete_writeTlin (s : State) (x : F32) (u : Word) :
    complete 0#32 ((s.afterDraw x).writeTlin u) = .next { s with
      tlin := u, vTlin := true, nanDraws := (s.afterDraw x).nanDraws
      responses := { ok := true, data := 0#32 } :: s.responses } := rfl

/-- The same for `PRESS`. -/
theorem complete_writePress (s : State) (x : F32) (u : Word) :
    complete 0#32 ((s.afterDraw x).writePress u) = .next { s with
      press := u, vPress := true, nanDraws := (s.afterDraw x).nanDraws
      responses := { ok := true, data := 0#32 } :: s.responses } := rfl

theorem State.afterDraw_nanDraws_of_ne_nan (s : State) {x : F32} (hx : x ≠ .nan) :
    (s.afterDraw x).nanDraws = s.nanDraws := by
  rw [s.afterDraw_of_ne_nan x hx]

/-- Settles O28: the operations of R127 are those of `compensateTemperature`. -/
theorem comptComputesTheTemperature : Obligations.ComptComputesTheTemperature := by
  intro s he hcoef hrawt r d1 d2 sq u
  have hval : s.temperature = fadd d2 u := by
    simp only [State.temperature, compensateTemperature, tempD2, tempU, tempD1, rawValue_eq, fpfmt_fval,
      fpfmt_add, fpfmt_sub, fpfmt_mul]
    rfl
  rw [← hval]
  exact ⟨s.computedBits s.temperature, (s.afterDraw s.temperature).nanDraws,
    (exec_compt_of_ready he hcoef hrawt).trans (complete_writeTlin s _ _),
    s.fval_computedBits (compensateTemperature_fits _ _),
    s.afterDraw_nanDraws_of_ne_nan⟩

/-- Settles O29: the operations of R128 are those of `compensatePressure`. -/
theorem comppComputesThePressure : Obligations.ComppComputesThePressure := by
  intro s he hcoef hrawp htlin T r T2 T3 a1 a2 a3 out1 b1 b2 b3 q out2 d1 m d2 d3 r3 e d4 y
  have hval : s.pressure = y := by
    simp only [State.pressure, compensatePressure, pressOut1, pressOut2, pressQ, pressD4, pressD3, pressD2,
      cubic, cube, square, rawValue_eq, fpfmt_fval, fpfmt_add, fpfmt_mul]
    rfl
  rw [← hval]
  exact ⟨s.computedBits s.pressure, (s.afterDraw s.pressure).nanDraws,
    (exec_compp_of_ready he hcoef hrawp htlin).trans (complete_writePress s _ _),
    s.fval_computedBits (compensatePressure_fits _ _ _),
    s.afterDraw_nanDraws_of_ne_nan⟩

/-! ### What they depend on (R131) -/

/-- Settles O30: the temperature reads these four only, and its pattern is drawn only for a NaN. -/
theorem temperatureDependsOnItsInputsOnly : Obligations.TemperatureDependsOnItsInputsOnly := by
  intro s t s' t' hse hscoef hsrawt hte htcoef htrawt hrawt ht1 ht2 ht3 hs' ht'
  obtain ⟨hsbits, hsval⟩ := tlin_after_compt hse hscoef hsrawt hs'
  obtain ⟨htbits, htval⟩ := tlin_after_compt hte htcoef htrawt ht'
  have htemp : s.temperature = t.temperature := by
    simp only [State.temperature, compensateTemperature, tempD2, tempU, tempD1, hrawt, ht1, ht2, ht3]
  rw [hsval, htval, hsbits, htbits, htemp]
  exact ⟨rfl, s.computedBits_eq_of_ne_nan t⟩

/-- `compensatePressure` reads none of `T1`, `T2`, `T3`. -/
theorem compensatePressure_eq_without_temperature (c : Coefs) (r T : F32) :
    compensatePressure c r T = compensatePressure { c with t1 := 0#32, t2 := 0#32, t3 := 0#32 } r T := rfl

/-- Settles O31: the pressure reads the inputs named only, and its pattern is drawn only for a NaN. -/
theorem pressureDependsOnItsInputsOnly : Obligations.PressureDependsOnItsInputsOnly := by
  intro s t s' t' hse hscoef hsrawp hstlin hte htcoef htrawp httlin hrawp htlin hcoefs hs' ht'
  obtain ⟨hsbits, hsval⟩ := press_after_compp hse hscoef hsrawp hstlin hs'
  obtain ⟨htbits, htval⟩ := press_after_compp hte htcoef htrawp httlin ht'
  have hpress : s.pressure = t.pressure := by
    rw [State.pressure, State.pressure, hrawp, htlin, compensatePressure_eq_without_temperature s.coef,
      hcoefs, ← compensatePressure_eq_without_temperature]
  rw [hsval, htval, hsbits, htbits, hpress]
  exact ⟨rfl, s.computedBits_eq_of_ne_nan t⟩

/-! ### Bounds (R130)

A finite value of magnitude at most `2^e` is `MagLe` of `2^(149 + e)`; the lemmas below add and compare such
exponents. -/

theorem representable_two_pow (e : Nat) : Representable (2 ^ e) := ⟨1, e, by decide, (Nat.one_mul _).symm⟩

theorem two_pow_lt_overflowMag {e : Nat} (he : e < 277) : 2 ^ e < overflowMag := by
  calc 2 ^ e < 2 ^ (128 + 149) := Nat.pow_lt_pow_right one_lt_two he
    _ = overflowMag := pow_add 2 128 149

theorem fmul_magLe_two_pow {x y : F32} {a b c : Nat} (hx : MagLe x (2 ^ a)) (hy : MagLe y (2 ^ b))
    (h : a + b = c + 149 := by omega) (hc : c < 277 := by omega) : MagLe (fmul x y) (2 ^ c) :=
  fmul_magLe hx hy (representable_two_pow c) (two_pow_lt_overflowMag hc) (by rw [← pow_add, ← pow_add, h])

theorem fadd_magLe_two_pow {x y : F32} {a b c : Nat} (hx : MagLe x (2 ^ a)) (hy : MagLe y (2 ^ b))
    (ha : a < c := by omega) (hb : b < c := by omega) (hc : c < 277 := by omega) :
    MagLe (fadd x y) (2 ^ c) := by
  refine fadd_magLe hx hy (representable_two_pow c) (two_pow_lt_overflowMag hc) ?_
  have ha' := Nat.pow_le_pow_right two_pos ha
  have hb' := Nat.pow_le_pow_right two_pos hb
  rw [pow_succ] at ha' hb'
  omega

theorem MagLe.boundedBy {x : F32} {c b : Nat} (h : MagLe x c) (hc : c < b * 2 ^ 149) : BoundedBy x b := by
  obtain ⟨neg, m, hx, hm⟩ := h
  exact ⟨neg, m, hx, hm.trans_lt hc⟩

/-- R123: a raw count is a nonnegative value below 2^24. -/
theorem exists_rawValue (raw : Word) : ∃ m, rawValue raw = .fin false m ∧ m ≤ 2 ^ 173 := by
  have hlt := Nat.mod_lt raw.toNat (Nat.two_pow_pos 24)
  refine ⟨raw.toNat % 2 ^ 24 * 2 ^ 149, ?_, by omega⟩
  rw [rawValue_eq, cvtIsExactBelowTwoToThe24 _ (by omega), Int.natAbs_natCast, decide_eq_false (by omega)]

theorem rawValue_magLe (raw : Word) : MagLe (rawValue raw) (2 ^ 173) :=
  let ⟨m, hr, hm⟩ := exists_rawValue raw
  ⟨false, m, hr, hm⟩

/-- A coefficient is bounded by its greatest integer, scaled (R96, R114). -/
theorem CoefPattern.magLe {i b : Nat} {u : Word} (h : CoefPattern i u)
    (hb : -b ≤ coefMin i ∧ coefMax i ≤ b) : MagLe (fval u) (b * 2 ^ (149 - coefExp i).toNat) := by
  obtain ⟨n, hlo, hhi, hval⟩ := h
  exact ⟨_, _, hval, Nat.mul_le_mul_right _ (by omega)⟩

theorem CoefPattern.magLe_two_pow {i e k : Nat} {u : Word} (h : CoefPattern i u)
    (hb : -(2 ^ e : Nat) ≤ coefMin i ∧ coefMax i ≤ (2 ^ e : Nat) := by decide)
    (hk : e + (149 - coefExp i).toNat = k := by decide) : MagLe (fval u) (2 ^ k) := by
  have := h.magLe hb
  rwa [← pow_add, hk] at this

/-- The difference of two values of one sign does not pass a bound of both. -/
theorem fsub_magLe_of_same_sign {a : Bool} {m n c : Nat} (hm : m ≤ c) (hn : n ≤ c) (hc : Representable c)
    (hlt : c < overflowMag) : MagLe (fsub (.fin a m) (.fin a n)) c := by
  have hsign : a ≠ !a := (Bool.not_ne_self a).symm
  obtain hlt' | rfl | hgt := Nat.lt_trichotomy n m
  · rw [fsub, fneg, fadd_of_gt hsign hlt']
    exact roundToF32_magLe a Nat.one_pos hc hlt (by omega)
  · rw [fsub, fneg, fadd_opposite hsign]
    exact ⟨false, 0, rfl, Nat.zero_le c⟩
  · rw [fsub, fneg, fadd_of_lt hsign hgt]
    exact roundToF32_magLe (!a) Nat.one_pos hc hlt (by omega)

/-- R130, `|d1| < 2^24`: `T1` is not negative, so the difference passes neither operand's bound. -/
theorem tempD1_magLe {c : Coefs} (hc : CoefPattern 0 c.t1) (raw : Word) :
    MagLe (tempD1 c (rawValue raw)) (2 ^ 173) := by
  obtain ⟨m, hr, hm⟩ := exists_rawValue raw
  obtain ⟨n, hlo, hhi, hval⟩ := hc
  have hlo : 0 ≤ n := hlo
  have hhi : n ≤ 65535 := hhi
  have hval : fval c.t1 = .fin false (n.natAbs * 2 ^ 157) := by
    rw [hval, exactScaled, decide_eq_false (by omega)]
    rfl
  rw [tempD1, hr, fpfmt_fval, hval, fpfmt_sub]
  exact fsub_magLe_of_same_sign hm (by omega) (representable_two_pow 173) (two_pow_lt_overflowMag (by decide))

/-- R130: `|d2| < 1024` and `|u| <= 128`. -/
theorem compensateTemperature_magLe {c : Coefs} (hc : ∀ i < 14, CoefPattern i (c.get i)) (raw : Word) :
    MagLe (compensateTemperature c (rawValue raw)) (73727 * 2 ^ 143) := by
  have hd1 : MagLe (tempD1 c (rawValue raw)) (2 ^ 173) := tempD1_magLe (hc 0 (by decide)) raw
  have ht2 : MagLe (fval c.t2) (65535 * 2 ^ 119) := CoefPattern.magLe (hc 1 (by decide)) (by decide)
  have ht3 : MagLe (fval c.t3) (2 ^ 108) :=
    CoefPattern.magLe_two_pow (e := 7) (hc 2 (by decide))
  have hd2 : MagLe (tempD2 c (rawValue raw)) (65535 * 2 ^ 143) :=
    fmul_magLe hd1 ht2 ⟨65535, 143, by decide, rfl⟩ (by norm_num [overflowMag]) (by norm_num)
  have hsq := fmul_magLe_two_pow (c := 197) hd1 hd1
  have hu : MagLe (tempU c (rawValue raw)) (2 ^ 156) := fmul_magLe_two_pow hsq ht3
  exact fadd_magLe hd2 hu ⟨73727, 143, by decide, rfl⟩ (by norm_num [overflowMag]) (by norm_num)

/-- Settles O32: the bound of R130 on every value that `COMPT` computes from legal coefficients. -/
theorem computedTemperatureIsBounded : Obligations.ComputedTemperatureIsBounded := by
  intro s hinv he hcoef hrawt
  obtain ⟨t, ht⟩ := exec_has_next .compt s
  obtain ⟨-, hval⟩ := tlin_after_compt he hcoef hrawt ht
  refine ⟨t, ht, ?_⟩
  rw [hval]
  exact (compensateTemperature_magLe hinv.coefLegal s.rawt).boundedBy (by norm_num)

/-- R130, the shape of `out1` and `q` with `|T| <= 2^11`: the terms are added from the left, and each sum has
the next exponent. -/
theorem cubic_magLe {k0 k1 k2 k3 : Word} {T : F32} {e0 e1 e2 e3 e : Nat} (h0 : MagLe (fval k0) (2 ^ e0))
    (h1 : MagLe (fval k1) (2 ^ e1)) (h2 : MagLe (fval k2) (2 ^ e2)) (h3 : MagLe (fval k3) (2 ^ e3))
    (hT : MagLe T (2 ^ 160)) (hk0 : e0 < e) (hk1 : e1 + 11 < e) (hk2 : e2 + 22 ≤ e) (hk3 : e3 + 33 ≤ e + 1)
    (he : e < 275) : MagLe (cubic k0 k1 k2 k3 T) (2 ^ (e + 2)) := by
  have hsq : MagLe (square T) (2 ^ 171) := fmul_magLe_two_pow hT hT
  have hcb : MagLe (cube T) (2 ^ 182) := fmul_magLe_two_pow hsq hT
  have ha1 : MagLe (fmul (fval k1) T) (2 ^ (e1 + 11)) := fmul_magLe_two_pow h1 hT
  have ha2 : MagLe (fmul (fval k2) (square T)) (2 ^ (e2 + 22)) :=
    fmul_magLe_two_pow h2 hsq
  have ha3 : MagLe (fmul (fval k3) (cube T)) (2 ^ (e3 + 33)) :=
    fmul_magLe_two_pow h3 hcb
  have hs1 := fadd_magLe_two_pow (c := e) h0 ha1
  have hs2 := fadd_magLe_two_pow (c := e + 1) hs1 ha2
  exact fadd_magLe_two_pow hs2 ha3

section
variable {c : Coefs} {r T : F32} (hc : ∀ i < 14, CoefPattern i (c.get i)) (hr : MagLe r (2 ^ 173))
  (hT : MagLe T (2 ^ 160))
include hc hT

/-- R130: `|out1| < 2^26`. -/
theorem pressOut1_magLe : MagLe (pressOut1 c T) (2 ^ 175) := by
  have h5 : MagLe (fval c.p5) (2 ^ 168) :=
    CoefPattern.magLe_two_pow (e := 16) (hc 7 (by decide))
  have h6 : MagLe (fval c.p6) (2 ^ 159) :=
    CoefPattern.magLe_two_pow (e := 16) (hc 8 (by decide))
  have h7 : MagLe (fval c.p7) (2 ^ 148) :=
    CoefPattern.magLe_two_pow (e := 7) (hc 9 (by decide))
  have h8 : MagLe (fval c.p8) (2 ^ 141) :=
    CoefPattern.magLe_two_pow (e := 7) (hc 10 (by decide))
  exact cubic_magLe h5 h6 h7 h8 hT (by decide) (by decide) (by decide) (by decide) (by decide)

/-- R130: `|q| < 16`. -/
theorem pressQ_magLe : MagLe (pressQ c T) (2 ^ 153) := by
  have h1 : MagLe (fval c.p1) (2 ^ 145) :=
    CoefPattern.magLe_two_pow (e := 16) (hc 3 (by decide))
  have h2 : MagLe (fval c.p2) (2 ^ 136) :=
    CoefPattern.magLe_two_pow (e := 16) (hc 4 (by decide))
  have h3 : MagLe (fval c.p3) (2 ^ 124) :=
    CoefPattern.magLe_two_pow (e := 7) (hc 5 (by decide))
  have h4 : MagLe (fval c.p4) (2 ^ 119) :=
    CoefPattern.magLe_two_pow (e := 7) (hc 6 (by decide))
  exact cubic_magLe h1 h2 h3 h4 hT (by decide) (by decide) (by decide) (by decide) (by decide)

/-- R130: `|d2| < 2^-29`. -/
theorem pressD2_magLe : MagLe (pressD2 c T) (2 ^ 120) := by
  have h9 : MagLe (fval c.p9) (2 ^ 116) :=
    CoefPattern.magLe_two_pow (e := 15) (hc 11 (by decide))
  have h10 : MagLe (fval c.p10) (2 ^ 108) :=
    CoefPattern.magLe_two_pow (e := 7) (hc 12 (by decide))
  have hm := fmul_magLe_two_pow (c := 119) h10 hT
  exact fadd_magLe_two_pow h9 hm

include hr

/-- R130: `|d3| < 2^19` and `|e| < 2^14`. -/
theorem pressD4_magLe : MagLe (pressD4 c r T) (2 ^ 169) := by
  have h11 : MagLe (fval c.p11) (2 ^ 91) :=
    CoefPattern.magLe_two_pow (e := 7) (hc 13 (by decide))
  have hsq : MagLe (square r) (2 ^ 197) := fmul_magLe_two_pow hr hr
  have hcb : MagLe (cube r) (2 ^ 221) := fmul_magLe_two_pow hsq hr
  have hd3 : MagLe (pressD3 c r T) (2 ^ 168) :=
    fmul_magLe_two_pow hsq (pressD2_magLe hc hT)
  have he := fmul_magLe_two_pow (c := 163) hcb h11
  exact fadd_magLe_two_pow hd3 he

/-- R130: `|out2| < 2^28`, and the sum of the three bounds is `321 * 2^20`, below 2^29. -/
theorem compensatePressure_magLe : MagLe (compensatePressure c r T) (321 * 2 ^ 169) := by
  have hout2 : MagLe (pressOut2 c r T) (2 ^ 177) :=
    fmul_magLe_two_pow hr (pressQ_magLe hc hT)
  have hout : MagLe (fadd (pressOut1 c T) (pressOut2 c r T)) (5 * 2 ^ 175) :=
    fadd_magLe (pressOut1_magLe hc hT) hout2 ⟨5, 175, by decide, rfl⟩ (by norm_num [overflowMag])
      (by norm_num)
  exact fadd_magLe hout (pressD4_magLe hc hr hT) ⟨321, 169, by decide, rfl⟩ (by norm_num [overflowMag])
    (by norm_num)

end

/-- Settles O33: the bound of R130 on every value that `COMPP` computes from legal coefficients and a bounded
temperature. -/
theorem pressureOfABoundedTemperatureIsFinite : Obligations.PressureOfABoundedTemperatureIsFinite := by
  intro s hinv he hcoef hrawp htlin hbound
  obtain ⟨t, ht⟩ := exec_has_next .compp s
  obtain ⟨-, hval⟩ := press_after_compp he hcoef hrawp htlin ht
  obtain ⟨neg, m, hT, hm⟩ := hbound
  have hT : MagLe (fval s.tlin) (2 ^ 160) := ⟨neg, m, hT, by omega⟩
  refine ⟨t, ht, ?_⟩
  rw [hval]
  exact (compensatePressure_magLe hinv.coefLegal (rawValue_magLe s.rawp) hT).boundedBy (by norm_num)

end Sys2Proof.Machine

/-! Proofs about the read-out and system commands (`43_readout_system.md`): the rows of the table of R150, the
frame of `RD`, and what is readable after `RST`. -/

namespace Sys2Proof.Machine

/-! ### The rows of R150 that name more than one selector -/

theorem readItem_of_coef {sel : Byte} (h : sel.toNat < 14) : readItem sel = some (.coef sel.toNat) :=
  if_pos h

theorem readItem_of_legalCalAddr {sel : Byte} (h : legalCalAddr sel = true) :
    readItem sel = some (.cal sel) := by
  have hlo : 0x31 ≤ sel.toNat := ((legalCalAddr_iff sel).mp h).1
  have hne {c : Byte} (hc : c.toNat < 0x31) : sel ≠ c := by
    rintro rfl
    omega
  have hcoef : ¬ sel.toNat < Config.ncoef := by
    rw [Config.ncoef]
    omega
  simp [readItem, hcoef, hne, h]

/-- The 14 coefficients in the order of R14 are `COEF[0..13]`. -/
theorem Coefs.get_of_getElem? (c : Coefs) {i : Nat} {d : Word}
    (h : [c.t1, c.t2, c.t3, c.p1, c.p2, c.p3, c.p4, c.p5, c.p6, c.p7, c.p8, c.p9, c.p10, c.p11][i]? = some d) :
    i < 14 ∧ c.get i = d := by
  obtain ⟨hi, hd⟩ := List.getElem?_eq_some_iff.mp h
  simp only [List.length_cons, List.length_nil, Nat.reduceAdd] at hi
  refine ⟨hi, ?_⟩
  interval_cases i <;> exact hd

/-! ### What a register that is valid, or a byte that is written, reads as -/

theorem ifValid_of_valid {valid : Bool} (h : valid = true) (d : Word) : ifValid valid d = some d :=
  if_pos h

theorem State.readData_cal_of_written {s : State} {a : Byte} (h : s.calw.getLsbD (calOffset a) = true) :
    s.readData (.cal a) = some ((s.cal.read a.toNat).zeroExtend 32) := by
  rw [State.readData, State.memRead_of_written h, Option.map_some]

/-- Settles O42: each row names an item, and the row's condition is that the item holds a value. -/
theorem rdReturnsTheSelectedItem : Obligations.RdReturnsTheSelectedItem := by
  intro s sel he answers
  have answers_of {c : Byte} {item : ReadItem} {d : Word} (hsel : sel = c) (hitem : readItem c = some item)
      (hdata : s.readData item = some d) : answers d := exec_rd_of_some he (hsel ▸ hitem) hdata
  refine ⟨fun d hd hv => ?coef, fun hsel hv => ?tlin, fun hsel hv => ?press, fun hsel hv => ?rawt,
    fun hsel hv => ?rawp, fun hsel => ?status, fun hsel => ?calw, fun hlo hhi hw => ?cal⟩
  case coef =>
    obtain ⟨hlt, rfl⟩ := s.coef.get_of_getElem? hd
    exact answers_of rfl (readItem_of_coef hlt) (ifValid_of_valid hv _)
  case tlin => exact answers_of hsel rfl (ifValid_of_valid hv _)
  case press => exact answers_of hsel rfl (ifValid_of_valid hv _)
  case rawt => exact answers_of hsel rfl (ifValid_of_valid hv _)
  case rawp => exact answers_of hsel rfl (ifValid_of_valid hv _)
  case status => exact answers_of hsel rfl s.readData_status
  case calw => exact answers_of hsel rfl s.readData_calw
  case cal =>
    have haddr : legalCalAddr sel = true := (legalCalAddr_iff sel).mpr ⟨hlo, hhi⟩
    exact answers_of rfl (readItem_of_legalCalAddr haddr) (State.readData_cal_of_written hw)

/-- Settles O43: of the effects of `RD`, only a fault writes `ERR`, and only where it was 0. -/
theorem rdChangesNoState : Obligations.RdChangesNoState := by
  intro s t sel h
  cases effect_of_exec h with
  | absorbed he => exact ⟨rfl, fun _ => rfl⟩
  | raised f he =>
    refine ⟨rfl, fun hfault => ?_⟩
    obtain hs | ht := hfault
    · exact absurd he hs
    · exact absurd ht f.code_ne_zero
  | rd he hitem hdata => exact ⟨rfl, fun _ => rfl⟩

/-! ### After `RST` (R151, R191) -/

/-- A selector of a view is the view's only one. -/
theorem ne_view_of_readItem {sel : Byte} {item : ReadItem} (h : readItem sel = some item)
    (hstatus : sel ≠ 0x20#8) (hcalw : sel ≠ 0x21#8) : item ≠ .status ∧ item ≠ .calw := by
  constructor
  · rintro rfl
    exact hstatus (by simpa using readItem_cases h)
  · rintro rfl
    exact hcalw (by simpa using readItem_cases h)

/-- Where nothing has been written, `RD` of anything but the views raises `NOT_READY` (R22, R164). -/
theorem exec_rd_of_nothing_written {s : State} (he : s.err = 0#4) (hcalw : s.calw = 0#21)
    (hflags : s.flags = [false, false, false, false, false]) {sel : Byte} (hlegal : legalSel sel = true)
    (hs : sel ≠ 0x20#8) (hc : sel ≠ 0x21#8) : exec (.rd sel) s = raise .notReady s := by
  obtain ⟨item, hitem⟩ := Option.isSome_iff_exists.mp hlegal
  obtain ⟨hstatus, hview⟩ := ne_view_of_readItem hitem hs hc
  exact exec_rd_of_none he hitem (State.readData_of_nothing_written hcalw hflags hstatus hview)

/-- Settles O45: the state after is `resetBlock`'s, in which nothing has been written. -/
theorem rstClearsEverything : Obligations.RstClearsEverything := by
  intro s
  refine ⟨s.resetBlock.respond true 0#32, rfl, rfl, rfl, rfl, rfl, rfl, fun sel hlegal hs hc => ?_⟩
  exact ⟨_, exec_rd_of_nothing_written rfl rfl rfl hlegal hs hc, rfl⟩

end Sys2Proof.Machine

/-! Proofs about the faults (`60_exceptions.md`): what a fault changes, the faulted state and the ways out of
it, and which command raises which fault. -/

namespace Sys2Proof.Machine

/-! ### A fault changes `ERR` and answers (R160, R161) -/

/-- Of the effects of a command in the unfaulted state, only a fault leaves `ERR` different from 0. -/
theorem Effect.raised_of_err_ne_zero {i : Instr} {s t : State} (e : Effect s i t) (he : s.err = 0#4)
    (ht : t.err ≠ 0#4) : ∃ f : FaultCause, raise f s = .next t := by
  cases e with
  | absorbed hs => exact absurd he hs
  | raised f _ => exact ⟨f, rfl⟩
  | rst => exact absurd rfl ht
  | _ => exact absurd he (by simpa using ht)

/-- R61: the `fault` output is 1 where `ERR` is not 0. -/
theorem State.faultOut_of_err_ne_zero {s : State} (h : s.err ≠ 0#4) : s.faultOut = 1#1 :=
  congrArg BitVec.ofBool (s.faulted_iff.mpr h)

/-- Settles O13: the word's effect is that of a fault, whose state `raise_next` gives field by field. -/
theorem faultsArePrecise : Obligations.FaultsArePrecise := by
  intro s t w rest hin he hstep ht
  obtain ⟨i, e⟩ := effect_of_runWord ((step_of_command hin).symm.trans hstep)
  obtain ⟨f, hf⟩ := e.raised_of_err_ne_zero he ht
  obtain rfl := eq_of_raise hf
  exact ⟨rfl, f.code_le, State.faultOut_of_err_ne_zero ht⟩

/-! ### The faulted state (R165 step 1, R167, R168) -/

/-- The legal `RST` word is the only one that decodes to `RST`. -/
theorem decode_eq_rst_iff (w : CommandWord) : decode w = .ok .rst ↔ w = 0x0100000000#40 := by
  constructor
  · intro h
    exact (encodeOfDecodeIsTheWord w .rst h).1.symm.trans (by decide)
  · rintro rfl
    exact decode_of_encode_eq rfl (by decide)

/-- R167: `RST` apart, every command is absorbed in the faulted state. -/
theorem exec_of_faulted {i : Instr} {s : State} (hi : i ≠ .rst) (he : s.err ≠ 0#4) :
    exec i s = absorb s := by
  obtain ⟨-, -, h⟩ | ⟨-, he', -⟩ | ⟨hrst | he', -⟩ := exec_cases i s
  · exact h
  · exact absurd he' he
  · exact absurd hrst hi
  · exact absurd he' he

/-- R167: so is every word but the legal `RST` word, legal or not. -/
theorem runWord_of_faulted {w : CommandWord} {s : State} (hw : w ≠ 0x0100000000#40) (he : s.err ≠ 0#4) :
    runWord w s = absorb s := by
  cases hdec : decode w with
  | ok i =>
    have hi : i ≠ .rst := by
      rintro rfl
      exact hw ((decode_eq_rst_iff w).mp hdec)
    exact (runWord_of_decode hdec s).trans (exec_of_faulted hi he)
  | error why => simp only [runWord, hdec, execIllegal, unlessFaulted_of_faulted he]

/-- Settles O14: the step takes the word, which is absorbed. -/
theorem faultedStateAbsorbs : Obligations.FaultedStateAbsorbs :=
  fun _ _ _ hin he hw => (step_of_command hin).trans (runWord_of_faulted hw he)

/-- R151: the step on the legal `RST` word resets in every state, and answers. -/
theorem step_of_rstWord {s : State} {rest : List HostInput}
    (h : s.inputs = .command 0x0100000000#40 :: rest) :
    step s = .next ((State.resetBlock { s with inputs := rest }).respond true 0#32) :=
  (step_of_command h).trans (runWord_of_decode ((decode_eq_rst_iff _).mpr rfl) _)

/-- R168: faults do not nest: on a step that is no reset, `ERR` keeps the first code. -/
theorem err_of_step_of_faulted {s t : State} (he : s.err ≠ 0#4) (hstep : step s = .next t)
    (hno : ¬ ∃ rest, s.inputs = .resetPin :: rest ∨ s.inputs = .command 0x0100000000#40 :: rest) :
    t.err = s.err := by
  obtain ⟨-, h⟩ | ⟨rest, hin, -⟩ | ⟨w, rest, hin, -⟩ := step_cases s
  · cases h.symm.trans hstep
    rfl
  · exact absurd ⟨rest, .inl hin⟩ hno
  · have hw : w ≠ 0x0100000000#40 := by
      rintro rfl
      exact hno ⟨rest, .inr hin⟩
    cases (faultedStateAbsorbs s w rest hin he hw).symm.trans hstep
    rfl

/-- Settles O15: a step that is no reset keeps `ERR`, and a reset ends in `resetBlock`'s state. -/
theorem onlyResetLeavesTheFaultedState : Obligations.OnlyResetLeavesTheFaultedState := by
  refine fun s t he hstep => ⟨fun hne => ?_, ?_⟩
  · by_contra hno
    exact hne (err_of_step_of_faulted he hstep hno)
  · rintro ⟨rest, hin | hin⟩
    · cases (step_of_resetPin hin).symm.trans hstep
      exact ⟨rfl, rfl, rfl⟩
    · cases (step_of_rstWord hin).symm.trans hstep
      exact ⟨rfl, rfl, rfl⟩

/-! ### The table of R164 -/

theorem notReadyWhen_coef (s : State) {sel : Byte} (h : sel.toNat < 14) :
    notReadyWhen s (.rd sel) = !s.vCoef :=
  if_pos (Nat.le_of_lt_succ h)

/-- The addresses of R11 lie above every other selector of R150. -/
theorem ne_of_legalCalAddr {a c : Byte} (h : legalCalAddr a = true) (hc : c.toNat < 0x31) : a ≠ c := by
  rintro rfl
  exact absurd ((legalCalAddr_iff a).mp h).1 (Nat.not_le_of_lt hc)

theorem notReadyWhen_cal (s : State) {sel : Byte} (h : legalCalAddr sel = true) :
    notReadyWhen s (.rd sel) = !s.calw.getLsbD (calOffset sel) := by
  have hlo : 0x31 ≤ sel.toNat := ((legalCalAddr_iff sel).mp h).1
  have hcoef : ¬ sel.toNat ≤ 0x0D := by omega
  simp [notReadyWhen, hcoef, ne_of_legalCalAddr h, calOffset, Config.calBase]

theorem notReadyWhen_compt (s : State) : notReadyWhen s .compt = !(s.vCoef && s.vRawt) :=
  (Bool.not_and _ _).symm

theorem notReadyWhen_compp (s : State) : notReadyWhen s .compp = !(s.vCoef && s.vRawp && s.vTlin) := by
  rw [Bool.not_and, Bool.not_and, notReadyWhen]

theorem ifValid_eq_none {valid : Bool} {d : Word} : ifValid valid d = none ↔ (!valid) = true := by
  cases valid <;> simp [ifValid]

theorem State.readData_cal_eq_none {s : State} {a : Byte} :
    s.readData (.cal a) = none ↔ (!s.calw.getLsbD (calOffset a)) = true := by
  rw [State.readData, Option.map_eq_none_iff, State.memRead_eq_none, Bool.not_eq_true']

/-- R164 on `RD`: the table names the selectors whose item holds no value. -/
theorem State.readData_eq_none_iff (s : State) {sel : Byte} {item : ReadItem}
    (h : readItem sel = some item) : s.readData item = none ↔ notReadyWhen s (.rd sel) = true := by
  obtain ⟨hlt, rfl⟩ | ⟨rfl, rfl⟩ | ⟨rfl, rfl⟩ | ⟨rfl, rfl⟩ | ⟨rfl, rfl⟩ | ⟨rfl, rfl⟩ | ⟨rfl, rfl⟩ |
    ⟨haddr, rfl⟩ := readItem_cases h
  · exact notReadyWhen_coef s hlt ▸ ifValid_eq_none
  · exact ifValid_eq_none
  · exact ifValid_eq_none
  · exact ifValid_eq_none
  · exact ifValid_eq_none
  · exact ⟨nofun, nofun⟩
  · exact ⟨nofun, nofun⟩
  · exact notReadyWhen_cal s haddr ▸ State.readData_cal_eq_none

/-! ### Which command raises which fault (R162 to R164) -/

/-- What a command does in the unfaulted state, with what decides it: it raises one of the three faults, or
it completes and `ERR` stays 0. -/
inductive UnfaultedResult (s : State) (i : Instr) : Prop
  | illegal (hwf : i.wf = false) (h : exec i s = raise .illegalCommand s)
  | calIncomplete (hi : i = .decode) (hcalw : s.calw ≠ 0x1FFFFF#21) (h : exec i s = raise .calIncomplete s)
  | notReady (hnr : notReadyWhen s i = true) (h : exec i s = raise .notReady s)
  | completes {d : Word} {t : State} (hready : notReadyWhen s i = false) (h : exec i s = complete d t)
      (ht : t.err = 0#4)

section
variable {s : State} (he : s.err = 0#4)
include he

/-- R163: `DECODE` needs all 21 bytes. -/
theorem exec_decode_of_not_full (hfull : s.calw ≠ 0x1FFFFF#21) : exec .decode s = raise .calIncomplete s := by
  rw [exec, execDecode, unlessFaulted_of_ok he, if_neg (mt (calFull_iff s).mp hfull)]

/-- R164 on `COMPT`. -/
theorem exec_compt_of_not_ready (h : notReadyWhen s .compt = true) : exec .compt s = raise .notReady s := by
  rw [notReadyWhen_compt, Bool.not_eq_true'] at h
  rw [exec, execCompt, unlessFaulted_of_ok he, h, if_neg Bool.false_ne_true]

/-- R164 on `COMPP`. -/
theorem exec_compp_of_not_ready (h : notReadyWhen s .compp = true) : exec .compp s = raise .notReady s := by
  rw [notReadyWhen_compp, Bool.not_eq_true'] at h
  rw [exec, execCompp, unlessFaulted_of_ok he, h, if_neg Bool.false_ne_true]

/-- Every command, by what it does in the unfaulted state (R165). -/
theorem unfaultedResult (i : Instr) : UnfaultedResult s i := by
  cases i with
  | rst => exact .completes rfl rfl rfl
  | ldcal a b =>
    cases ha : legalCalAddr a with
    | false => exact .illegal ha (exec_ldcal_of_illegal he ha b)
    | true => exact .completes rfl (exec_ldcal_of_legal he ha b) he
  | ldrawt x l m => exact .completes rfl (exec_ldrawt_of_ok he x l m) he
  | ldrawp x l m => exact .completes rfl (exec_ldrawp_of_ok he x l m) he
  | ldt u => exact .completes rfl (exec_ldt_of_ok he u) he
  | decode =>
    by_cases hfull : s.calw = 0x1FFFFF#21
    · exact .completes rfl (exec_decode_of_full he hfull) (by simpa using he)
    · exact .calIncomplete rfl hfull (exec_decode_of_not_full he hfull)
  | compt =>
    cases h : notReadyWhen s .compt with
    | true => exact .notReady h (exec_compt_of_not_ready he h)
    | false =>
      obtain ⟨hcoef, hrawt⟩ : s.vCoef = true ∧ s.vRawt = true := by
        simpa [notReadyWhen_compt] using h
      exact .completes h (exec_compt_of_ready he hcoef hrawt) (by simpa using he)
  | compp =>
    cases h : notReadyWhen s .compp with
    | true => exact .notReady h (exec_compp_of_not_ready he h)
    | false =>
      obtain ⟨⟨hcoef, hrawp⟩, htlin⟩ : (s.vCoef = true ∧ s.vRawp = true) ∧ s.vTlin = true := by
        simpa [notReadyWhen_compp] using h
      exact .completes h (exec_compp_of_ready he hcoef hrawp htlin) (by simpa using he)
  | rd sel =>
    cases hsel : legalSel sel with
    | false => exact .illegal hsel (exec_rd_of_illegal he hsel)
    | true =>
      obtain ⟨item, hitem⟩ := Option.isSome_iff_exists.mp hsel
      have hnone : s.readData item = none ↔ notReadyWhen s (.rd sel) = true := s.readData_eq_none_iff hitem
      cases hdata : s.readData item with
      | none => exact .notReady (hnone.mp hdata) (exec_rd_of_none he hitem hdata)
      | some d => exact .completes (by simpa [hdata] using hnone) (exec_rd_of_some he hitem hdata) he

end

/-- `ERR` after a command that raises a fault. -/
theorem err_of_exec_eq_raise {i : Instr} {f : FaultCause} {s t : State} (h : exec i s = raise f s)
    (ht : exec i s = .next t) : f.code = t.err :=
  eq_of_raise (h.symm.trans ht) ▸ rfl

/-- `ERR` after a command that completes. -/
theorem err_of_exec_eq_complete {i : Instr} {d : Word} {s t u : State} (h : exec i s = complete d u)
    (ht : exec i s = .next t) : u.err = t.err :=
  eq_of_complete (h.symm.trans ht) ▸ rfl

/-- Settles O16: of all that a command can do in the unfaulted state, only this fault leaves `ERR` at 2. -/
theorem calIncompleteExactlyFromDecode : Obligations.CalIncompleteExactlyFromDecode := by
  refine ⟨fun s he hcalw => exec_decode_of_not_full he hcalw, fun i s t he ht herr => ?_⟩
  cases unfaultedResult he i with
  | illegal _ h => exact absurd ((err_of_exec_eq_raise h ht).trans herr) (by decide)
  | calIncomplete hi hcalw _ => exact ⟨hi, hcalw⟩
  | notReady _ h => exact absurd ((err_of_exec_eq_raise h ht).trans herr) (by decide)
  | completes _ h hu => exact absurd (hu.symm.trans ((err_of_exec_eq_complete h ht).trans herr)) (by decide)

/-- Settles O17: of all that a well-formed command can do in the unfaulted state, it raises this fault where
the table says so, and nothing else leaves `ERR` at 3. -/
theorem notReadyExactlyByTheTable : Obligations.NotReadyExactlyByTheTable := by
  intro i s hwf he
  cases unfaultedResult he i with
  | illegal hill _ => exact absurd hwf (Bool.eq_false_iff.mp hill)
  | calIncomplete hi _ h =>
    subst hi
    exact ⟨nofun, fun t ht herr => absurd ((err_of_exec_eq_raise h ht).trans herr) (by decide)⟩
  | notReady hnr h => exact ⟨fun _ => h, fun _ _ _ => hnr⟩
  | completes hready h hu =>
    refine ⟨fun hnr => absurd hnr (Bool.eq_false_iff.mp hready), fun t ht herr => ?_⟩
    exact absurd (hu.symm.trans ((err_of_exec_eq_complete h ht).trans herr)) (by decide)

end Sys2Proof.Machine

/-! Proofs about reset and the hazards (`70_reset_and_hazards.md`): the steps that wait or reset, totality,
which command gives `TLIN` a value, and what succeeds where nothing has been written. -/

namespace Sys2Proof.Machine

/-! ### Waiting, resetting, and a next state for every step (R190, R191, R198, R200) -/

/-- Settles O8: with nothing presented, the command port gives nothing to run. -/
theorem stepWaitsForACommand : Obligations.StepWaitsForACommand :=
  fun _ => step_of_nil

/-- Settles O9: the step on the pin ends in the state of `resetBlock`, and that on the word adds its response. -/
theorem resetPinAndRstAgree : Obligations.ResetPinAndRstAgree :=
  fun _ _ => ⟨step_of_resetPin, step_of_rstWord⟩

/-- Settles O11: waiting and the pin have a next state, a word has the effect of its command or of a fault. -/
theorem everyStepHasANextState : Obligations.EveryStepHasANextState := by
  refine ⟨fun s => ?_, exec_has_next⟩
  obtain ⟨-, h⟩ | ⟨rest, -, h⟩ | ⟨w, rest, -, h⟩ := step_cases s
  · exact ⟨_, h⟩
  · exact ⟨_, h⟩
  · obtain ⟨-, t, ht, -⟩ := exists_effect_of_runWord w { s with inputs := rest }
    exact ⟨t, h.trans ht⟩

/-! ### Which commands give `TLIN` a value (R193) -/

/-- Of the effects of a command, only those of `COMPT` and `LDT` set `V.TLIN`. -/
theorem Effect.compt_or_ldt_of_sets_vTlin {i : Instr} {s t : State} (e : Effect s i t)
    (hs : s.vTlin = false) (ht : t.vTlin = true) : i = .compt ∨ ∃ u, i = .ldt u := by
  cases e with
  | compt => exact .inl rfl
  | @ldt u => exact .inr ⟨u, rfl⟩
  | _ => simp [hs] at ht

/-- So only their words do; an illegal word completes nothing. -/
theorem decode_of_runWord_sets_vTlin {w : CommandWord} {s t : State} (h : runWord w s = .next t)
    (hs : s.vTlin = false) (ht : t.vTlin = true) : decode w = .ok .compt ∨ ∃ u, decode w = .ok (.ldt u) := by
  cases hdec : decode w with
  | ok i =>
    have e : Effect s i t := effect_of_exec ((runWord_of_decode hdec s).symm.trans h)
    simpa using e.compt_or_ldt_of_sets_vTlin hs ht
  | error why =>
    have hill : execIllegal why s = .next t := by simpa only [runWord, hdec] using h
    have e : Effect s .rst t := effect_of_execIllegal hill
    simpa using e.compt_or_ldt_of_sets_vTlin hs ht

/-- Waiting and the pin do not set `V.TLIN`, so a step that does is one on such a word. -/
theorem word_of_step_sets_vTlin {s t : State} (h : step s = .next t) (hs : s.vTlin = false)
    (ht : t.vTlin = true) : ∃ w rest, s.inputs = .command w :: rest ∧
      (decode w = .ok .compt ∨ ∃ u, decode w = .ok (.ldt u)) := by
  obtain ⟨-, hstep⟩ | ⟨rest, -, hstep⟩ | ⟨w, rest, hin, hstep⟩ := step_cases s
  · cases hstep.symm.trans h
    simp [hs] at ht
  · cases hstep.symm.trans h
    simp at ht
  · exact ⟨w, rest, hin, decode_of_runWord_sets_vTlin (hstep.symm.trans h) hs ht⟩

/-- Settles O19: `COMPP` is not ready without a temperature; only `COMPT` and `LDT` give one, and both resets
end in `resetBlock`'s state, which has none. -/
theorem pressureNeedsATemperature : Obligations.PressureNeedsATemperature := by
  refine ⟨fun s he hv => exec_compp_of_not_ready he ?_,
    fun i s t h hs ht => (effect_of_exec h).compt_or_ldt_of_sets_vTlin hs ht,
    fun s t h hs ht => word_of_step_sets_vTlin h hs ht, rfl, fun s rest hin => ?_⟩
  · simp [notReadyWhen_compp, hv]
  · obtain hin | hin := hin
    · exact ⟨_, step_of_resetPin hin, rfl⟩
    · exact ⟨_, step_of_rstWord hin, rfl⟩

/-! ### What succeeds where nothing has been written (R192) -/

/-- A command that completes from an unfaulted state leaves `ERR` 0. -/
theorem succeeds_of_complete {i : Instr} {d : Word} {s u : State} {P : Prop} (h : exec i s = complete d u)
    (hu : u.err = 0#4) (hP : P) : ∃ t, exec i s = .next t ∧ (t.err = 0#4 ↔ P) :=
  ⟨_, h, iff_of_true hu hP⟩

/-- A command that raises a fault does not. -/
theorem fails_of_raise {i : Instr} {f : FaultCause} {s : State} {P : Prop} (h : exec i s = raise f s)
    (hP : ¬ P) : ∃ t, exec i s = .next t ∧ (t.err = 0#4 ↔ P) :=
  ⟨_, h, iff_of_false f.code_ne_zero hP⟩

/-- Settles O47: the loads and `RST` complete, the views hold a value, and every other command lacks what it
reads. -/
theorem onlyLoadsAndViewsSucceedAfterReset : Obligations.OnlyLoadsAndViewsSucceedAfterReset := by
  intro s i he hcalw hflags hwf
  have hcoef : s.vCoef = false := (List.cons.inj hflags).1
  cases i with
  | rst => exact succeeds_of_complete rfl rfl (by simp)
  | ldcal a b => exact succeeds_of_complete (exec_ldcal_of_legal he hwf b) he (by simp)
  | ldrawt x l m => exact succeeds_of_complete (exec_ldrawt_of_ok he x l m) he (by simp)
  | ldrawp x l m => exact succeeds_of_complete (exec_ldrawp_of_ok he x l m) he (by simp)
  | ldt u => exact succeeds_of_complete (exec_ldt_of_ok he u) he (by simp)
  | decode => exact fails_of_raise (exec_decode_of_not_full he (by simp [hcalw])) (by simp)
  | compt => exact fails_of_raise (exec_compt_of_not_ready he (by simp [notReadyWhen_compt, hcoef])) (by simp)
  | compp => exact fails_of_raise (exec_compp_of_not_ready he (by simp [notReadyWhen_compp, hcoef])) (by simp)
  | rd sel =>
    by_cases hs : sel = 0x20#8
    · exact succeeds_of_complete (exec_rd_of_some he (hs ▸ rfl) s.readData_status) he (by simp [hs])
    by_cases hc : sel = 0x21#8
    · exact succeeds_of_complete (exec_rd_of_some he (hc ▸ rfl) s.readData_calw) he (by simp [hc])
    exact fails_of_raise (exec_rd_of_nothing_written he hcalw hflags hwf hs hc) (by simp [hs, hc])

end Sys2Proof.Machine
